-- ==== Sys2Proof/Word.lean ====
section
/-! DEFINITION. The words of the Miyamii-4000 (`spec/00_scope.md` R3, notation 5.1): every value is an unsigned bit
vector of a stated width, bit 0 the least significant. -/

namespace Sys2Proof

/-- One bit: `CY`, a level of the test pin. -/
abbrev Bit := BitVec 1

/-- Four bits: `ACC`, an index register, a RAM character, a port. -/
abbrev Nibble := BitVec 4

/-- Eight bits: a byte of ROM, a register pair, `SRCADDR`. -/
abbrev Byte := BitVec 8

/-- A ROM address, twelve bits: `pc`, an entry of `STK`. -/
abbrev Addr := BitVec 12

end Sys2Proof
end

