-- ==== Sys2Proof/Config.lean ====
section
/-! DEFINITION. What is fixed for this hardware (`spec/00_scope.md` R2, R3), the timing constants
(`spec/70_reset_and_hazards.md` R240, R241), and the free values of the two environment draws (R4). -/

namespace Sys2Proof.Config

/-- Bytes of program memory, R2. -/
def romSize : Nat := 4096

/-- Four-bit locations of data memory, R2 and `spec/20_memory.md` R43: 1024 main and 256 status characters. -/
def ramSize : Nat := 1280

/-- `STACK_DEPTH` of R3. -/
def stackDepth : Nat := 3

/-- The eight clock cycles of one instruction, as R241 names them. -/
inductive ClockCycle where
  | A1 | A2 | A3 | M1 | M2 | X1 | X2 | X3
  deriving DecidableEq, Repr

/-- The cycles of one instruction in order (R241); every instruction takes all of them (R240). -/
def instructionCycles : List ClockCycle := [.A1, .A2, .A3, .M1, .M2, .X1, .X2, .X3]

/-- The clock period in tenths of a microsecond: "10.8 microseconds" (R240). -/
def clockPeriodTenths : Nat := 108

/-- FREE VALUE. The level of the test pin at the n-th draw when the platform has lined up none (R4 `TEST_IN`; D25:
"one bit drawn afresh at every JCN with `c[3] = 1`"). No body: nothing can be proved of it. DESIGN CHOICE, log 4. -/
opaque testIn : Nat → Bit

/-- FREE VALUE. What the platform drives on ROM port `k` at the n-th draw when it has lined up none (R4
`ROM_PORT_IN`; D26: "a 4-bit draw, not the latch"). No body: nothing can be proved of it. DESIGN CHOICE, log 4. -/
opaque romPortIn : Nat → Nibble → Nibble

end Sys2Proof.Config
end

