-- ==== Sys2Proof/Syntax.lean ====
section
/-! DEFINITION. The instructions (`spec/opcode_table.json`, one constructor per row, in the table's order) and the
assembler's source lines (`spec/30_encoding.md` R87, R88). -/

namespace Sys2Proof

/-- An index register number, the field `rrrr` (`spec/10_state.md` R12). -/
abbrev Reg := Fin 16

/-- A register pair number, the field `rrr` (R13). -/
abbrev RegPair := Fin 8

/-- The condition of JCN, the field `cccc`, bit by bit (`spec/30_encoding.md` R86). -/
structure Cond where
  /-- Bit 3: "Test test pin = 0". -/
  testPinZero : Bool
  /-- Bit 2: "Test carry = 1". -/
  carryOne : Bool
  /-- Bit 1: "Test accumulator = 0". -/
  accZero : Bool
  /-- Bit 0: "Invert condition". -/
  invert : Bool
  deriving DecidableEq, Repr

/-- The 45 instructions. -/
inductive Instr where
  | nop
  | jcn (c : Cond) (a : Byte)
  | fim (p : RegPair) (d : Byte)
  | src (p : RegPair)
  | fin (p : RegPair)
  | jin (p : RegPair)
  | jun (a : Addr)
  | jms (a : Addr)
  | inc (r : Reg)
  | isz (r : Reg) (a : Byte)
  | add (r : Reg)
  | sub (r : Reg)
  | ld (r : Reg)
  | xch (r : Reg)
  | bbl (d : Nibble)
  | ldm (d : Nibble)
  | wrm
  | wmp
  | wrr
  | wr0
  | wr1
  | wr2
  | wr3
  | sbm
  | rdm
  | rdr
  | adm
  | rd0
  | rd1
  | rd2
  | rd3
  | clb
  | clc
  | iac
  | cmc
  | cma
  | ral
  | rar
  | tcc
  | dac
  | tcs
  | stc
  | daa
  | kbp
  | dcl
  deriving DecidableEq, Repr

/-- The kinds of operand of R80 and R88. -/
inductive OperandKind where
  | reg | pair | data4 | data8 | addr12 | addr8 | cond
  deriving DecidableEq, Repr

/-- An operand as written in a source line: a number, or a name (a label, or the condition `NZ`). -/
inductive Operand where
  | num (n : Nat)
  | sym (name : String)
  deriving DecidableEq, Repr

/-- A source line, `LABEL:  OPCODE  OPERAND     ; Comment` (R87): label and operation are each optional. -/
structure SourceLine where
  label : Option String
  op : Option (String × List Operand)
  deriving DecidableEq, Repr

end Sys2Proof
end

