-- ==== Sys2Proof/WellFormed.lean ====
section
/-! DEFINITION. Which operand values an instruction may hold (`spec/30_encoding.md` R80, R88). The types of `Instr`
admit no other value, so every `Instr` passes (`Laws.Encoding`, `wellFormed_all`); the same check refuses numbers of the
wrong range or count in a source line. -/

namespace Sys2Proof

/-- How many values an operand of a kind has (the widths of R80). -/
def OperandKind.bound : OperandKind → Nat
  | .reg => 16
  | .pair => 8
  | .data4 => 16
  | .data8 => 256
  | .addr12 => 4096
  | .addr8 => 256
  | .cond => 16

/-- The value `n` fits an operand of this kind. -/
def OperandKind.admits (k : OperandKind) (n : Nat) : Bool := decide (n < k.bound)

/-- As many numbers as kinds, each within its range. -/
def operandsAdmitted : List OperandKind → List Nat → Bool
  | [], [] => true
  | k :: ks, n :: ns => k.admits n && operandsAdmitted ks ns
  | _, _ => false

/-- The operands of an instruction as numbers, each with its kind. The four bits of a condition are named fields and
need no check. -/
def Instr.operandNumbers : Instr → List (OperandKind × Nat)
  | .jcn _ a => [(.addr8, a.toNat)]
  | .fim p d => [(.pair, p.val), (.data8, d.toNat)]
  | .src p | .fin p | .jin p => [(.pair, p.val)]
  | .jun a | .jms a => [(.addr12, a.toNat)]
  | .inc r | .add r | .sub r | .ld r | .xch r => [(.reg, r.val)]
  | .isz r a => [(.reg, r.val), (.addr8, a.toNat)]
  | .bbl d | .ldm d => [(.data4, d.toNat)]
  | .nop | .wrm | .wmp | .wrr | .wr0 | .wr1 | .wr2 | .wr3 | .sbm | .rdm | .rdr | .adm | .rd0 | .rd1 | .rd2 | .rd3
  | .clb | .clc | .iac | .cmc | .cma | .ral | .rar | .tcc | .dac | .tcs | .stc | .daa | .kbp | .dcl => []

/-- Every operand of the instruction is in the range its encoding field admits. -/
def Instr.wellFormed (i : Instr) : Bool := i.operandNumbers.all fun o => o.1.admits o.2

end Sys2Proof
end

