-- ==== Sys2Proof/Decode.lean ====
section
/-! DEFINITION. Instruction bytes (`spec/30_encoding.md` R70 to R86): the bit-field helpers, the decoder, the encoder,
and the rows of `spec/opcode_table.json`. -/

namespace Sys2Proof

/-- Bits [7:4] of a byte. -/
def highNibble (b : Byte) : Nibble := b.extractLsb' 4 4

/-- Bits [3:0] of a byte. -/
def lowNibble (b : Byte) : Nibble := b.extractLsb' 0 4

/-- `h : l`, the high-order part first (`spec/20_memory.md` R44). -/
def joinNibbles (h l : Nibble) : Byte := h ++ l

/-- `a12 = b1[3:0] : b2` (R77, R80). -/
def joinAddr (h : Nibble) (l : Byte) : Addr := h ++ l

/-- Bits [11:8] of a ROM address, its page (`spec/20_memory.md` R41). -/
def pageOf (a : Addr) : Nibble := a.extractLsb' 8 4

/-- Bits [7:0] of a ROM address. -/
def offsetOf (a : Addr) : Byte := a.extractLsb' 0 8

/-- The register a field `rrrr` selects (`spec/10_state.md` R12). -/
def regOfField (n : Nibble) : Reg := ⟨n.toNat, n.isLt⟩

/-- The pair a field `rrr` in bits [3:1] selects (R13, R75, R76). -/
def pairOfField (n : Nibble) : RegPair := ⟨(n.extractLsb' 1 3).toNat, (n.extractLsb' 1 3).isLt⟩

/-- The condition field `cccc` bit by bit (R86). -/
def condOfField (n : Nibble) : Cond where
  testPinZero := n.getLsbD 3
  carryOne := n.getLsbD 2
  accZero := n.getLsbD 1
  invert := n.getLsbD 0

/-- The field `cccc` of a condition. -/
def Cond.field (c : Cond) : Nibble :=
  BitVec.ofBool c.testPinZero ++ BitVec.ofBool c.carryOne ++ BitVec.ofBool c.accZero ++ BitVec.ofBool c.invert

/-- The length of the instruction that begins with `b1`, a function of `b1` alone (R71). -/
def instrLength (b1 : Byte) : Nat :=
  match (highNibble b1).toNat with
  | 1 | 4 | 5 | 7 => 2
  | 2 => if b1.getLsbD 0 then 1 else 2
  | _ => 1

/-- The RAM and port instructions, `b1 = 1110 ssss` (R72, R81). `0011` is not assigned (R83). -/
def decodeRam (n : Nibble) : Option Instr :=
  match n.toNat with
  | 0 => some .wrm
  | 1 => some .wmp
  | 2 => some .wrr
  | 4 => some .wr0
  | 5 => some .wr1
  | 6 => some .wr2
  | 7 => some .wr3
  | 8 => some .sbm
  | 9 => some .rdm
  | 10 => some .rdr
  | 11 => some .adm
  | 12 => some .rd0
  | 13 => some .rd1
  | 14 => some .rd2
  | 15 => some .rd3
  | _ => none

/-- The accumulator instructions, `b1 = 1111 ssss` (R72, R81). `1110` and `1111` are not assigned (R83). -/
def decodeAcc (n : Nibble) : Option Instr :=
  match n.toNat with
  | 0 => some .clb
  | 1 => some .clc
  | 2 => some .iac
  | 3 => some .cmc
  | 4 => some .cma
  | 5 => some .ral
  | 6 => some .rar
  | 7 => some .tcc
  | 8 => some .dac
  | 9 => some .tcs
  | 10 => some .stc
  | 11 => some .daa
  | 12 => some .kbp
  | 13 => some .dcl
  | _ => none

/-- The instruction with first byte `b1` and, if it has two bytes, second byte `b2`: the opcode map of R81 with the
operands of R80. `none` for the 18 unassigned first bytes (R83). -/
def decodeBytes (b1 b2 : Byte) : Option Instr :=
  let n := lowNibble b1
  match (highNibble b1).toNat with
  | 0 => if n = 0 then some .nop else none
  | 1 => some (.jcn (condOfField n) b2)
  | 2 => if n.getLsbD 0 then some (.src (pairOfField n)) else some (.fim (pairOfField n) b2)
  | 3 => if n.getLsbD 0 then some (.jin (pairOfField n)) else some (.fin (pairOfField n))
  | 4 => some (.jun (joinAddr n b2))
  | 5 => some (.jms (joinAddr n b2))
  | 6 => some (.inc (regOfField n))
  | 7 => some (.isz (regOfField n) b2)
  | 8 => some (.add (regOfField n))
  | 9 => some (.sub (regOfField n))
  | 10 => some (.ld (regOfField n))
  | 11 => some (.xch (regOfField n))
  | 12 => some (.bbl n)
  | 13 => some (.ldm n)
  | 14 => decodeRam n
  | _ => decodeAcc n

/-- Why a list of bytes begins with no instruction. -/
inductive DecodeError where
  /-- There is no byte. -/
  | noByte
  /-- The first byte starts a two-byte instruction and there is no second byte. -/
  | noSecondByte (b1 : Byte)
  /-- The first byte is one of the 18 unassigned values (R83). -/
  | unassigned (b1 : Byte)
  deriving DecidableEq, Repr

/-- The decode procedure of R82 on any list of bytes: the instruction at its head and the bytes after it, or the reason
there is none. -/
def decode : List Byte → Except DecodeError (Instr × List Byte)
  | [] => .error .noByte
  | b1 :: rest =>
    if instrLength b1 = 1 then
      match decodeBytes b1 0 with
      | some i => .ok (i, rest)
      | none => .error (.unassigned b1)
    else
      match rest with
      | [] => .error (.noSecondByte b1)
      | b2 :: rest' =>
        match decodeBytes b1 b2 with
        | some i => .ok (i, rest')
        | none => .error (.unassigned b1)

/-- `b1 = oooo xxxx`: opcode in bits [7:4], operand in bits [3:0] (R73, R74, R77, R78, R79). -/
def opByte (opcode n : Nibble) : Byte := joinNibbles opcode n

/-- The field of a register. -/
def regField (r : Reg) : Nibble := BitVec.ofNat 4 r.val

/-- Bits [3:0] of a pair instruction: the pair in bits [3:1], the selecting bit `s` in bit 0 (R75, R76). -/
def pairField (p : RegPair) (s : Bit) : Nibble := BitVec.ofNat 3 p.val ++ s

/-- The bytes of an instruction, first byte first (R72 to R81). -/
def encode : Instr → List Byte
  | .nop => [0x00]
  | .jcn c a => [opByte 0x1 c.field, a]
  | .fim p d => [opByte 0x2 (pairField p 0), d]
  | .src p => [opByte 0x2 (pairField p 1)]
  | .fin p => [opByte 0x3 (pairField p 0)]
  | .jin p => [opByte 0x3 (pairField p 1)]
  | .jun a => [opByte 0x4 (pageOf a), offsetOf a]
  | .jms a => [opByte 0x5 (pageOf a), offsetOf a]
  | .inc r => [opByte 0x6 (regField r)]
  | .isz r a => [opByte 0x7 (regField r), a]
  | .add r => [opByte 0x8 (regField r)]
  | .sub r => [opByte 0x9 (regField r)]
  | .ld r => [opByte 0xA (regField r)]
  | .xch r => [opByte 0xB (regField r)]
  | .bbl d => [opByte 0xC d]
  | .ldm d => [opByte 0xD d]
  | .wrm => [0xE0]
  | .wmp => [0xE1]
  | .wrr => [0xE2]
  | .wr0 => [0xE4]
  | .wr1 => [0xE5]
  | .wr2 => [0xE6]
  | .wr3 => [0xE7]
  | .sbm => [0xE8]
  | .rdm => [0xE9]
  | .rdr => [0xEA]
  | .adm => [0xEB]
  | .rd0 => [0xEC]
  | .rd1 => [0xED]
  | .rd2 => [0xEE]
  | .rd3 => [0xEF]
  | .clb => [0xF0]
  | .clc => [0xF1]
  | .iac => [0xF2]
  | .cmc => [0xF3]
  | .cma => [0xF4]
  | .ral => [0xF5]
  | .rar => [0xF6]
  | .tcc => [0xF7]
  | .dac => [0xF8]
  | .tcs => [0xF9]
  | .stc => [0xFA]
  | .daa => [0xFB]
  | .kbp => [0xFC]
  | .dcl => [0xFD]

/-- The mnemonic of an instruction, as `spec/opcode_table.json` spells it. -/
def Instr.mnemonic : Instr → String
  | .nop => "NOP"
  | .jcn _ _ => "JCN"
  | .fim _ _ => "FIM"
  | .src _ => "SRC"
  | .fin _ => "FIN"
  | .jin _ => "JIN"
  | .jun _ => "JUN"
  | .jms _ => "JMS"
  | .inc _ => "INC"
  | .isz _ _ => "ISZ"
  | .add _ => "ADD"
  | .sub _ => "SUB"
  | .ld _ => "LD"
  | .xch _ => "XCH"
  | .bbl _ => "BBL"
  | .ldm _ => "LDM"
  | .wrm => "WRM"
  | .wmp => "WMP"
  | .wrr => "WRR"
  | .wr0 => "WR0"
  | .wr1 => "WR1"
  | .wr2 => "WR2"
  | .wr3 => "WR3"
  | .sbm => "SBM"
  | .rdm => "RDM"
  | .rdr => "RDR"
  | .adm => "ADM"
  | .rd0 => "RD0"
  | .rd1 => "RD1"
  | .rd2 => "RD2"
  | .rd3 => "RD3"
  | .clb => "CLB"
  | .clc => "CLC"
  | .iac => "IAC"
  | .cmc => "CMC"
  | .cma => "CMA"
  | .ral => "RAL"
  | .rar => "RAR"
  | .tcc => "TCC"
  | .dac => "DAC"
  | .tcs => "TCS"
  | .stc => "STC"
  | .daa => "DAA"
  | .kbp => "KBP"
  | .dcl => "DCL"

/-- A row of `spec/opcode_table.json`: `length`, `b1_match` and `b1_mask` of a mnemonic. -/
structure OpcodeRow where
  mnemonic : String
  length : Nat
  b1Match : Byte
  b1Mask : Byte
  deriving DecidableEq, Repr

/-- The row's test on a first byte, `(b1 & mask) = match`. -/
def OpcodeRow.selects (row : OpcodeRow) (b1 : Byte) : Bool := b1 &&& row.b1Mask == row.b1Match

/-- The rows with an operand in the first byte. -/
def operandRows : List OpcodeRow :=
  [⟨"JCN", 2, 0x10, 0xF0⟩, ⟨"FIM", 2, 0x20, 0xF1⟩, ⟨"SRC", 1, 0x21, 0xF1⟩, ⟨"FIN", 1, 0x30, 0xF1⟩,
   ⟨"JIN", 1, 0x31, 0xF1⟩, ⟨"JUN", 2, 0x40, 0xF0⟩, ⟨"JMS", 2, 0x50, 0xF0⟩, ⟨"INC", 1, 0x60, 0xF0⟩,
   ⟨"ISZ", 2, 0x70, 0xF0⟩, ⟨"ADD", 1, 0x80, 0xF0⟩, ⟨"SUB", 1, 0x90, 0xF0⟩, ⟨"LD", 1, 0xA0, 0xF0⟩,
   ⟨"XCH", 1, 0xB0, 0xF0⟩, ⟨"BBL", 1, 0xC0, 0xF0⟩, ⟨"LDM", 1, 0xD0, 0xF0⟩]

/-- The rows with all eight bits fixed (format F1, R72). -/
def fixedRows : List OpcodeRow :=
  [⟨"NOP", 1, 0x00, 0xFF⟩,
   ⟨"WRM", 1, 0xE0, 0xFF⟩, ⟨"WMP", 1, 0xE1, 0xFF⟩, ⟨"WRR", 1, 0xE2, 0xFF⟩, ⟨"WR0", 1, 0xE4, 0xFF⟩,
   ⟨"WR1", 1, 0xE5, 0xFF⟩, ⟨"WR2", 1, 0xE6, 0xFF⟩, ⟨"WR3", 1, 0xE7, 0xFF⟩, ⟨"SBM", 1, 0xE8, 0xFF⟩,
   ⟨"RDM", 1, 0xE9, 0xFF⟩, ⟨"RDR", 1, 0xEA, 0xFF⟩, ⟨"ADM", 1, 0xEB, 0xFF⟩, ⟨"RD0", 1, 0xEC, 0xFF⟩,
   ⟨"RD1", 1, 0xED, 0xFF⟩, ⟨"RD2", 1, 0xEE, 0xFF⟩, ⟨"RD3", 1, 0xEF, 0xFF⟩] ++
  [⟨"CLB", 1, 0xF0, 0xFF⟩, ⟨"CLC", 1, 0xF1, 0xFF⟩, ⟨"IAC", 1, 0xF2, 0xFF⟩, ⟨"CMC", 1, 0xF3, 0xFF⟩,
   ⟨"CMA", 1, 0xF4, 0xFF⟩, ⟨"RAL", 1, 0xF5, 0xFF⟩, ⟨"RAR", 1, 0xF6, 0xFF⟩, ⟨"TCC", 1, 0xF7, 0xFF⟩,
   ⟨"DAC", 1, 0xF8, 0xFF⟩, ⟨"TCS", 1, 0xF9, 0xFF⟩, ⟨"STC", 1, 0xFA, 0xFF⟩, ⟨"DAA", 1, 0xFB, 0xFF⟩,
   ⟨"KBP", 1, 0xFC, 0xFF⟩, ⟨"DCL", 1, 0xFD, 0xFF⟩]

/-- The 45 rows of `spec/opcode_table.json`, a second account of the encodings beside `decodeBytes`. -/
def opcodeTable : List OpcodeRow := fixedRows ++ operandRows

/-- The bytes of an instruction given as one number, numbered as `spec/opcode_table.json` numbers it ("the first byte as
the high-order byte", bit 0 the least significant bit of the last byte; log 8), with a second byte of zeros where the
table gives one byte. -/
def tableWordBytes (nbits w : Nat) : Byte × Byte :=
  if nbits ≤ 8 then (BitVec.ofNat 8 w, 0) else (BitVec.ofNat 8 (w / 256), BitVec.ofNat 8 w)

/-- The instruction the decoder reads from an opcode-table word. -/
def decodeTableWord (nbits w : Nat) : Option Instr :=
  match decode [(tableWordBytes nbits w).1, (tableWordBytes nbits w).2] with
  | .ok (i, _) => some i
  | .error _ => none

end Sys2Proof
end

