-- ==== Sys2Proof/Machine/BankMap.lean ====
section
/-! DEFINITION. The default of the parameter `BANK_MAP` (`spec/10_state.md` R21). -/

namespace Sys2Proof.Machine

/-- "`BANK = 0` selects bank 0, `BANK = 1` bank 1, `BANK = 2` bank 2, `BANK = 4` bank 3, and `BANK` = 3, 5, 6 or 7
selects no single bank (`none`)" (R21, from general knowledge; D18). PRESUMED, log 5. -/
def defaultBankMap : Vector (Option (Fin 4)) 8 :=
  #v[some 0, some 1, some 2, none, some 3, none, none, none]

end Sys2Proof.Machine
end

