-- ==== Sys2Proof/Machine/State.lean ====
section
/-! DEFINITION. The state of the machine (`spec/10_state.md`), why a step stops (`spec/60_exceptions.md` R202), and
the state after reset (R29, `spec/70_reset_and_hazards.md` R230). -/

namespace Sys2Proof.Machine

/-- A memory of `w`-bit units: its listed locations, addresses strictly rising, none holding what an unlisted location
reads as (`Memory.wf`). -/
abbrev Memory (w : Nat) := List (Nat × BitVec w)

/-- An output event, which the environment can see (`spec/00_scope.md` 5.3, `spec/20_memory.md` R49). -/
inductive OutputEvent where
  /-- WMP wrote the RAM output port of a bank's chip. -/
  | ramPort (bank : Fin 4) (chip : BitVec 2) (value : Nibble)
  /-- WRR wrote a ROM port. -/
  | romPort (port : Nibble) (value : Nibble)
  deriving DecidableEq, Repr

/-- Everything the spec gives the machine (`spec/10_state.md` R10 to R28), the launch parameters that stay constant
during a run, and what stands for the environment's draws. -/
structure State where
  /-- `ACC`, R10. -/
  acc : Nibble
  /-- `CY`, R11. -/
  cy : Bit
  /-- `x[0]` to `x[15]`, R12. -/
  x : Vector Nibble 16
  /-- `pc`, R14: while an instruction executes, the address of its first byte. -/
  pc : Addr
  /-- `STK`, R17: last pushed first. -/
  stk : List Addr
  /-- `BANK`, R19. -/
  bank : BitVec 3
  /-- `SRCADDR`, R20: eight bits, or `none`. -/
  srcaddr : Option Byte
  /-- `BANK_MAP`, R21: a launch parameter. -/
  bankMap : Vector (Option (Fin 4)) 8
  /-- `ROM`, R22: a launch parameter. -/
  rom : Memory 8
  /-- `M` and `ST`, R23, R24, at the flat locations of `spec/20_memory.md` R43. -/
  ram : Memory 4
  /-- `RP[b][c]`, R25, at index 4 b + c. -/
  ramPort : Vector Nibble 16
  /-- `OP[k]`, R26. -/
  romPort : Vector Nibble 16
  /-- The output events so far, in program order (`spec/20_memory.md` R49). -/
  events : List OutputEvent
  /-- The model's own: levels of the test pin the platform has lined up for the coming draws (R27, log 4). -/
  testInputs : List Bit
  /-- The model's own: draws of the test pin so far. -/
  testDraws : Nat
  /-- The model's own: ROM port inputs the platform has lined up for the coming draws (R26, log 4). -/
  portInputs : List Nibble
  /-- The model's own: draws of a ROM port input so far. -/
  portDraws : Nat
  deriving DecidableEq, Repr

/-- The model faults of `spec/60_exceptions.md` R202, with the information each records. All are safe: the machine
stops, in the state before the instruction, where the spec gives no behaviour (R201). -/
inductive Fault where
  /-- Raised by decode on an unassigned first byte (`spec/30_encoding.md` R84). Safe. -/
  | illegalInstruction (pc : Addr) (b1 : Byte)
  /-- Raised by JMS when three return addresses are stacked (`spec/46_jump_branch.md` R161). Safe. -/
  | stackOverflow (pc : Addr)
  /-- Raised by BBL when no return address is stacked (R164). Safe. -/
  | stackUnderflow (pc : Addr)
  /-- Raised by a RAM or port instruction while `SRCADDR = none` (`spec/20_memory.md` R46). Safe. -/
  | ramAddressUnset (pc : Addr)
  /-- Raised by a RAM instruction when `BANK_MAP(BANK) = none` (R46). Safe. -/
  | ramBankInvalid (pc : Addr) (bank : BitVec 3)
  deriving DecidableEq, Repr

/-- The spec's own numbering of the faults (R202). -/
def Fault.code : Fault → Nat
  | .illegalInstruction _ _ => 1
  | .stackOverflow _ => 2
  | .stackUnderflow _ => 3
  | .ramAddressUnset _ => 4
  | .ramBankInvalid _ _ => 5

/-- Why an instruction has no meaning. -/
inductive Refusal where
  /-- Raised by `exec` alone, for an instruction without a meaning yet; no arm raises it. Safe. -/
  | notModelled (mnemonic : String)
  deriving DecidableEq, Repr

/-- The launch parameters of a run (`spec/00_scope.md` R4) but `END`, which `runUntil` takes. -/
structure Launch where
  /-- `ROM`. -/
  rom : Memory 8
  /-- `RAM_INIT`: main and status characters. -/
  ram : Memory 4
  /-- `RAM_INIT`: RAM output ports. -/
  ramPort : Vector Nibble 16
  /-- `RAM_INIT`: ROM output ports (`spec/10_state.md` R29). -/
  romPort : Vector Nibble 16
  /-- `BANK_MAP`. -/
  bankMap : Vector (Option (Fin 4)) 8
  /-- `TEST_IN`: the levels lined up. -/
  testInputs : List Bit
  /-- `ROM_PORT_IN`: the inputs lined up. -/
  portInputs : List Nibble
  deriving DecidableEq, Repr

/-- The state after reset under given launch parameters (R29, R230). -/
def State.launch (p : Launch) : State where
  acc := 0
  cy := 0
  x := Vector.replicate 16 0
  pc := 0x000
  stk := []
  bank := 0
  srcaddr := none
  bankMap := p.bankMap
  rom := p.rom
  ram := p.ram
  ramPort := p.ramPort
  romPort := p.romPort
  events := []
  testInputs := p.testInputs
  testDraws := 0
  portInputs := p.portInputs
  portDraws := 0

/-- The launch with nothing listed: no byte of ROM and no RAM character, ports 0, the default `BANK_MAP`, no input lined
up. DESIGN CHOICE, logs 1, 2, 4. -/
def Launch.empty : Launch where
  rom := []
  ram := []
  ramPort := Vector.replicate 16 0
  romPort := Vector.replicate 16 0
  bankMap := defaultBankMap
  testInputs := []
  portInputs := []

/-- The state right after reset: R230 with the empty launch. -/
def State.reset : State := State.launch Launch.empty

/-! Updates of one field each; `Laws/State.lean` says what each leaves alone. -/

def State.setAcc (s : State) (v : Nibble) : State := { s with acc := v }
def State.setCy (s : State) (v : Bit) : State := { s with cy := v }
def State.setX (s : State) (v : Vector Nibble 16) : State := { s with x := v }
def State.setPc (s : State) (v : Addr) : State := { s with pc := v }
def State.setStk (s : State) (v : List Addr) : State := { s with stk := v }
def State.setBank (s : State) (v : BitVec 3) : State := { s with bank := v }
def State.setSrcaddr (s : State) (v : Option Byte) : State := { s with srcaddr := v }
def State.setRom (s : State) (v : Memory 8) : State := { s with rom := v }
def State.setRam (s : State) (v : Memory 4) : State := { s with ram := v }
def State.setRamPort (s : State) (v : Vector Nibble 16) : State := { s with ramPort := v }
def State.setRomPort (s : State) (v : Vector Nibble 16) : State := { s with romPort := v }
def State.setEvents (s : State) (v : List OutputEvent) : State := { s with events := v }
def State.setTestInput (s : State) (v : List Bit) (n : Nat) : State := { s with testInputs := v, testDraws := n }
def State.setPortInput (s : State) (v : List Nibble) (n : Nat) : State := { s with portInputs := v, portDraws := n }

end Sys2Proof.Machine
end

