-- ==== Sys2Proof/Machine/Ops.lean ====
section
/-! DEFINITION. The named operations over memories, the selection of a RAM location or port, the stack, the ports, the
environment's draws, faults and fetch. -/

namespace Sys2Proof.Machine

/-- What a step, an instruction or an operation on the whole state answers. -/
abbrev Result := Host.Outcome State Fault Refusal

/-- `raise <Fault>` (`spec/00_scope.md` 5.3): the one way an instruction stops. No state is written: the machine stands
in the state before the instruction (`spec/60_exceptions.md` R201, D32). There is no trap entry and no trap return
(R207, R208). -/
def raise (f : Fault) : Result := .fault f

/-! ### Memories -/

/-- What an unlisted location reads as. `RAM_INIT` and `ROM` are launch parameters (`spec/00_scope.md` R4); every
content is some list, since the locations a list leaves out hold 0. DESIGN CHOICE, logs 1 and 2. -/
def Memory.unlisted (w : Nat) : BitVec w := 0#w

/-- The content of a location. -/
def Memory.read {w : Nat} : Memory w → Nat → BitVec w
  | [], _ => Memory.unlisted w
  | (k, v) :: m, a => if a = k then v else if a < k then Memory.unlisted w else Memory.read m a

/-- The memory with `v` at location `a`; writing what an unlisted location reads as removes the entry. -/
def Memory.write {w : Nat} : Memory w → Nat → BitVec w → Memory w
  | [], a, v => if v = Memory.unlisted w then [] else [(a, v)]
  | (k, u) :: m, a, v =>
    if a < k then (if v = Memory.unlisted w then (k, u) :: m else (a, v) :: (k, u) :: m)
    else if a = k then (if v = Memory.unlisted w then m else (a, v) :: m)
    else (k, u) :: Memory.write m a v

/-- The canonical form from location `lo` on, below `size`. -/
def Memory.wfFrom {w : Nat} (size : Nat) : Nat → Memory w → Bool
  | _, [] => true
  | lo, (k, v) :: m => decide (lo ≤ k) && decide (k < size) && !decide (v = Memory.unlisted w) && wfFrom size (k + 1) m

/-- The canonical form: addresses strictly rising and below `size`, no entry equal to what an unlisted location reads
as. -/
def Memory.wf {w : Nat} (size : Nat) (m : Memory w) : Bool := Memory.wfFrom size 0 m

/-- A memory written byte by byte from address `a` up. -/
def Memory.writeList {w : Nat} (m : Memory w) (a : Nat) : List (BitVec w) → Memory w
  | [] => m
  | v :: vs => Memory.writeList (m.write a v) (a + 1) vs

/-- `MemRead(ROM:a, 1)` (`spec/00_scope.md` 5.3). -/
def State.readRom (s : State) (a : Addr) : Byte := s.rom.read a.toNat

/-- The location of main character `M[b][a]`: `256*b + a` (`spec/20_memory.md` R43). -/
def mainLoc (b : Fin 4) (a : Byte) : Nat := 256 * b.val + a.toNat

/-- The location of status character `ST[b][g][n]`: `1024 + 64*b + 4*g + n` (R43). -/
def statusLoc (b : Fin 4) (g : Nibble) (n : Fin 4) : Nat := 1024 + 64 * b.val + 4 * g.toNat + n.val

/-- `M[b][a]`. -/
def State.readMain (s : State) (b : Fin 4) (a : Byte) : Nibble := s.ram.read (mainLoc b a)

/-- `ST[b][g][n]`. -/
def State.readStatus (s : State) (b : Fin 4) (g : Nibble) (n : Fin 4) : Nibble := s.ram.read (statusLoc b g n)

/-- `M[b][a] <- v`. -/
def State.writeMain (s : State) (b : Fin 4) (a : Byte) (v : Nibble) : State := s.setRam (s.ram.write (mainLoc b a) v)

/-- `ST[b][g][n] <- v`. -/
def State.writeStatus (s : State) (b : Fin 4) (g : Nibble) (n : Fin 4) (v : Nibble) : State :=
  s.setRam (s.ram.write (statusLoc b g n) v)

/-! ### The program counter -/

/-- `next(k) = (pc + k) mod 4096` (`spec/10_state.md` R16). -/
def State.nextPc (s : State) (k : Nat) : Addr := s.pc + BitVec.ofNat 12 k

/-- `pc <- next(k)`. -/
def State.advance (s : State) (k : Nat) : State := s.setPc (s.nextPc k)

/-- An 8-bit address completed by the page of `next(k)`: `next(k)[11:8] : a8` (R15; D7, D8). -/
def State.inPageOfNext (s : State) (k : Nat) (a8 : Byte) : Addr := joinAddr (pageOf (s.nextPc k)) a8

/-! ### Selection (`spec/20_memory.md` R46) -/

/-- What `sel()` returns. -/
structure RamSelection where
  /-- The bank, 0..3. -/
  b : Fin 4
  /-- The main character within the bank, `SRCADDR[7:0]`. -/
  a : Byte
  /-- The RAM register within the bank, `SRCADDR[7:4]`. -/
  g : Nibble
  /-- The chip within the bank, `SRCADDR[7:6]`. -/
  c : BitVec 2
  /-- The character within the RAM register, `SRCADDR[3:0]`. -/
  ch : Nibble
  deriving DecidableEq, Repr

/-- The bank that `BANK` selects through `BANK_MAP` (`spec/10_state.md` R21). -/
def State.selectedBank (s : State) : Option (Fin 4) := s.bankMap[s.bank.toNat]'s.bank.isLt

/-- The fields of an SRC address in a bank (`spec/10_state.md` R20; D20). -/
def selectionAt (b : Fin 4) (addr : Byte) : RamSelection where
  b := b
  a := addr
  g := addr.extractLsb' 4 4
  c := addr.extractLsb' 6 2
  ch := addr.extractLsb' 0 4

/-- `sel()`: the test of `SRCADDR` comes before the test of `BANK` (R46, R206). -/
def State.sel (s : State) : Except Fault RamSelection :=
  match s.srcaddr with
  | none => .error (.ramAddressUnset s.pc)
  | some addr =>
    match s.selectedBank with
    | none => .error (.ramBankInvalid s.pc s.bank)
    | some b => .ok (selectionAt b addr)

/-- `rsel()`: the ROM port number; `BANK` is not consulted. -/
def State.rsel (s : State) : Except Fault Nibble :=
  match s.srcaddr with
  | none => .error (.ramAddressUnset s.pc)
  | some addr => .ok (addr.extractLsb' 4 4)

/-- A RAM or RAM-port instruction with effect `k` on the selected location, or the fault of `sel()`. -/
def State.onSelected (s : State) (k : RamSelection → State) : Result :=
  match s.sel with
  | .error f => raise f
  | .ok r => .next (k r)

/-- A ROM-port instruction with effect `k` on the selected port, or the fault of `rsel()`. -/
def State.onRomPort (s : State) (k : Nibble → State) : Result :=
  match s.rsel with
  | .error f => raise f
  | .ok p => .next (k p)

/-! ### The subroutine stack (`spec/10_state.md` R17, R18) -/

/-- `push(a)`. The spec's stack never holds more than three entries; a list that did would overflow too (log 11). -/
def State.push (s : State) (a : Addr) : Except Fault State :=
  if s.stk.length < Config.stackDepth then .ok (s.setStk (a :: s.stk)) else .error (.stackOverflow s.pc)

/-- `pop()`: the address and the state without it. -/
def State.pop (s : State) : Except Fault (Addr × State) :=
  match s.stk with
  | [] => .error (.stackUnderflow s.pc)
  | a :: rest => .ok (a, s.setStk rest)

/-! ### Ports and draws -/

/-- The index of `RP[b][c]` among the 16 latches, 4 b + c. -/
def ramPortIndex (b : Fin 4) (c : BitVec 2) : Fin 16 := ⟨4 * b.val + c.toNat, by have := b.isLt; have := c.isLt; omega⟩

/-- `RP[b][c]`. -/
def State.readRamPort (s : State) (b : Fin 4) (c : BitVec 2) : Nibble := s.ramPort[ramPortIndex b c]

/-- `OP[k]`. -/
def State.readRomPort (s : State) (k : Nibble) : Nibble := s.romPort[k.toNat]'k.isLt

/-- `PortOut(RAMPORT:b.c, v)`: set the latch and record an output event (`spec/00_scope.md` 5.3). -/
def State.ramPortOut (s : State) (b : Fin 4) (c : BitVec 2) (v : Nibble) : State :=
  (s.setRamPort (s.ramPort.set (ramPortIndex b c) v)).setEvents (s.events ++ [.ramPort b c v])

/-- `PortOut(ROMPORT:k, v)`. -/
def State.romPortOut (s : State) (k : Nibble) (v : Nibble) : State :=
  (s.setRomPort (s.romPort.set k.toNat v k.isLt)).setEvents (s.events ++ [.romPort k v])

/-- The value the next `TestIn()` returns: the level the platform has lined up, else a free value (log 4). -/
def State.testLevel (s : State) : Bit :=
  match s.testInputs with
  | b :: _ => b
  | [] => Config.testIn s.testDraws

/-- The state after a `TestIn()`: the draw is used up; nothing of the processor changes (`spec/20_memory.md` R49). -/
def State.afterTest (s : State) : State := s.setTestInput s.testInputs.tail (s.testDraws + 1)

/-- The value the next `PortIn(ROMPORT:k)` returns (log 4). -/
def State.portLevel (s : State) (k : Nibble) : Nibble :=
  match s.portInputs with
  | v :: _ => v
  | [] => Config.romPortIn s.portDraws k

/-- The state after a `PortIn`. -/
def State.afterPort (s : State) : State := s.setPortInput s.portInputs.tail (s.portDraws + 1)

/-! ### Fetch (`spec/20_memory.md` R45) -/

/-- The bytes of the instruction at `pc`: the second is read only for a two-byte instruction. -/
def State.fetchBytes (s : State) : List Byte :=
  let b1 := s.readRom s.pc
  if instrLength b1 = 1 then [b1] else [b1, s.readRom (s.nextPc 1)]

/-- The instruction at `pc`, or the fault of an unassigned first byte (`spec/30_encoding.md` R82, R84). -/
def State.fetch (s : State) : Except Fault Instr :=
  match decode s.fetchBytes with
  | .ok (i, _) => .ok i
  | .error _ => .error (.illegalInstruction s.pc (s.readRom s.pc))

/-- The state with a byte placed in ROM from outside the machine: the supply of a launch parameter, no instruction. -/
def State.placeRom (s : State) (a : Addr) (b : Byte) : State := s.setRom (s.rom.write a.toNat b)

end Sys2Proof.Machine
end

