-- ==== Sys2Proof/Machine/Flags.lean ====
section
/-! DEFINITION. The accumulator arithmetic with its carry (`spec/41_arithmetic.md` R110 to R116, `spec/43_rotate.md`):
each operation is a 5-bit value `t` whose bits [3:0] are the result and whose bit 4 is the new `CY`. -/

namespace Sys2Proof.Machine

/-- A result and its carry as one 5-bit value, carry in bit 4. -/
abbrev Sum5 := BitVec 5

/-- `t[3:0]`. -/
def Sum5.result (t : Sum5) : Nibble := t.extractLsb' 0 4

/-- `t[4]`. -/
def Sum5.carry (t : Sum5) : Bit := t.extractLsb' 4 1

/-- ADD and ADM: `zext_5(ACC) + zext_5(m) + zext_5(CY)` (R110, R184; D12). -/
def addSum (a m : Nibble) (cy : Bit) : Sum5 := a.setWidth 5 + m.setWidth 5 + cy.setWidth 5

/-- SUB and SBM: `zext_5(ACC) + zext_5(~m) + zext_5(~CY)` (R111, R183; D13). -/
def subSum (a m : Nibble) (cy : Bit) : Sum5 := a.setWidth 5 + (~~~m).setWidth 5 + (~~~cy).setWidth 5

/-- INC and IAC: `zext_5(v) + 1` (R112, R113; D14). -/
def incSum (v : Nibble) : Sum5 := v.setWidth 5 + 1

/-- DAC: `zext_5(ACC) + 15` (R114; D13, D14). -/
def decSum (v : Nibble) : Sum5 := v.setWidth 5 + 15

/-- DAA (R115; D15): add 6 when `ACC > 9` or `CY = 1`; a carry sets `CY`, which is never cleared. -/
def daaSum (a : Nibble) (cy : Bit) : Sum5 :=
  if 9 < a ∨ cy = 1 then
    let t : Sum5 := a.setWidth 5 + 6
    (t.carry ||| cy) ++ t.result
  else cy ++ a

/-- RAL: `CY : ACC <- ACC[3] : ACC[2:0] : CY` (`spec/43_rotate.md` R130). -/
def ralSum (a : Nibble) (cy : Bit) : Sum5 := a.extractLsb' 3 1 ++ (a.extractLsb' 0 3 ++ cy)

/-- RAR: `CY <- ACC[0]`, `ACC <- old_cy : ACC[3:1]` (R131). -/
def rarSum (a : Nibble) (cy : Bit) : Sum5 := a.extractLsb' 0 1 ++ (cy ++ a.extractLsb' 1 3)

/-- `ACC <- t[3:0]`, `CY <- t[4]`. -/
def State.setSum (s : State) (t : Sum5) : State := (s.setAcc t.result).setCy t.carry

end Sys2Proof.Machine
end

