-- ==== Sys2Proof/Machine/Operands.lean ====
section
/-! DEFINITION. The operand forms: index registers, register pairs, the condition of JCN (`spec/10_state.md` R12, R13,
`spec/30_encoding.md` R80, R86). -/

namespace Sys2Proof.Machine

/-- `x[r]`. -/
def State.readReg (s : State) (r : Reg) : Nibble := s.x[r]

/-- `x[r] <- v`. -/
def State.writeReg (s : State) (r : Reg) (v : Nibble) : State := s.setX (s.x.set r v)

/-- The even register of a pair, its high nibble (R13; D10). -/
def evenReg (p : RegPair) : Reg := ⟨2 * p.val, by omega⟩

/-- The odd register of a pair, its low nibble. -/
def oddReg (p : RegPair) : Reg := ⟨2 * p.val + 1, by omega⟩

/-- `xp[p] = x[2p] : x[2p+1]`. -/
def State.readPair (s : State) (p : RegPair) : Byte := joinNibbles (s.readReg (evenReg p)) (s.readReg (oddReg p))

/-- `xp[p] <- v`: `x[2p] <- v[7:4]; x[2p+1] <- v[3:0]` (`spec/00_scope.md` 5.2). -/
def State.writePair (s : State) (p : RegPair) (v : Byte) : State :=
  (s.writeReg (evenReg p) (highNibble v)).writeReg (oddReg p) (lowNibble v)

/-- `t` of R86: some selected test succeeds. -/
def Cond.someTest (c : Cond) (acc : Nibble) (cy test : Bit) : Bool :=
  (c.accZero && acc == 0) || (c.carryOne && cy == 1) || (c.testPinZero && test == 0)

/-- `take = t xor c[0]` (R86). -/
def Cond.take (c : Cond) (acc : Nibble) (cy test : Bit) : Bool := (Cond.someTest c acc cy test).xor c.invert

end Sys2Proof.Machine
end

