-- ==== Sys2Proof/Machine/Arithmetic.lean ====
section
/-! DEFINITION. `spec/41_arithmetic.md`. -/

namespace Sys2Proof.Machine

/-- ADD r, R110. -/
def execAdd (r : Reg) (s : State) : Result := .next ((s.setSum (addSum s.acc (s.readReg r) s.cy)).advance 1)

/-- SUB r, R111. -/
def execSub (r : Reg) (s : State) : Result := .next ((s.setSum (subSum s.acc (s.readReg r) s.cy)).advance 1)

/-- INC r, R112: `CY` is the carry of the increment (D14). -/
def execInc (r : Reg) (s : State) : Result :=
  let t := incSum (s.readReg r)
  .next (((s.writeReg r t.result).setCy t.carry).advance 1)

/-- IAC, R113. -/
def execIac (s : State) : Result := .next ((s.setSum (incSum s.acc)).advance 1)

/-- DAC, R114. -/
def execDac (s : State) : Result := .next ((s.setSum (decSum s.acc)).advance 1)

/-- DAA, R115. -/
def execDaa (s : State) : Result := .next ((s.setSum (daaSum s.acc s.cy)).advance 1)

end Sys2Proof.Machine
end

