-- ==== Sys2Proof/Machine/Jump.lean ====
section
/-! DEFINITION. `spec/46_jump_branch.md`. -/

namespace Sys2Proof.Machine

/-- JUN a, R160. -/
def execJun (a : Addr) (s : State) : Result := .next (s.setPc a)

/-- JMS a, R161: `push(next(2))`, then `pc <- a12`. -/
def execJms (a : Addr) (s : State) : Result :=
  match s.push (s.nextPc 2) with
  | .error f => raise f
  | .ok t => .next (t.setPc a)

/-- The end of JCN and ISZ: the jump within the page of `next(2)`, or the instruction after (R162, R163; D7). -/
def State.branch (s : State) (take : Bool) (a8 : Byte) : State :=
  if take then s.setPc (s.inPageOfNext 2 a8) else s.advance 2

/-- JCN c,a, R162: the test pin is drawn only when `c[3] = 1`. -/
def execJcn (c : Cond) (a8 : Byte) (s : State) : Result :=
  let take := Cond.take c s.acc s.cy s.testLevel
  .next ((if c.testPinZero then s.afterTest else s).branch take a8)

/-- ISZ r,a, R163: `CY` is unchanged. -/
def execIsz (r : Reg) (a8 : Byte) (s : State) : Result :=
  let v := s.readReg r + 1
  .next ((s.writeReg r v).branch (v != 0) a8)

/-- BBL d, R164: `pop()`, then `ACC <- d`. -/
def execBbl (d : Nibble) (s : State) : Result :=
  match s.pop with
  | .error f => raise f
  | .ok (ret, t) => .next ((t.setAcc d).setPc ret)

end Sys2Proof.Machine
end

