-- ==== Sys2Proof/Machine/Logic.lean ====
section
/-! DEFINITION. `spec/42_logic.md`. -/

namespace Sys2Proof.Machine

/-- CMA, R120. -/
def execCma (s : State) : Result := .next ((s.setAcc (~~~s.acc)).advance 1)

/-- CMC, R121. -/
def execCmc (s : State) : Result := .next ((s.setCy (~~~s.cy)).advance 1)

/-- STC, R122. -/
def execStc (s : State) : Result := .next ((s.setCy 1).advance 1)

/-- CLC, R123. -/
def execClc (s : State) : Result := .next ((s.setCy 0).advance 1)

/-- CLB, R124. -/
def execClb (s : State) : Result := .next (((s.setAcc 0).setCy 0).advance 1)

end Sys2Proof.Machine
end

