-- ==== Sys2Proof/Machine/Nop.lean ====
section
/-! DEFINITION. `spec/40_nop.md`. -/

namespace Sys2Proof.Machine

/-- NOP, R100. -/
def execNop (s : State) : Result := .next (s.advance 1)

end Sys2Proof.Machine
end

