-- ==== Sys2Proof/Machine/Pair.lean ====
section
/-! DEFINITION. `spec/45_register_pair.md`. -/

namespace Sys2Proof.Machine

/-- FIM rp,d, R150. -/
def execFim (p : RegPair) (d : Byte) (s : State) : Result := .next ((s.writePair p d).advance 2)

/-- SRC rp, R151. -/
def execSrc (p : RegPair) (s : State) : Result := .next ((s.setSrcaddr (some (s.readPair p))).advance 1)

/-- The ROM address FIN reads: the page of the following instruction, the offset from pair 0 (R152; D8, D9). -/
def State.finAddr (s : State) : Addr := s.inPageOfNext 1 (s.readPair 0)

/-- FIN rp, R152: the byte is read before any register is written. -/
def execFin (p : RegPair) (s : State) : Result := .next ((s.writePair p (s.readRom s.finAddr)).advance 1)

/-- JIN rp, R153. -/
def execJin (p : RegPair) (s : State) : Result := .next (s.setPc (s.inPageOfNext 1 (s.readPair p)))

end Sys2Proof.Machine
end

