-- ==== Sys2Proof/Machine/Ram.lean ====
section
/-! DEFINITION. `spec/47_ram_io.md`. A fault of `sel()` or `rsel()` comes before anything is written. -/

namespace Sys2Proof.Machine

/-- WRM, R170. -/
def execWrm (s : State) : Result := s.onSelected fun r => (s.writeMain r.b r.a s.acc).advance 1

/-- WMP, R171. -/
def execWmp (s : State) : Result := s.onSelected fun r => (s.ramPortOut r.b r.c s.acc).advance 1

/-- WRR, R172. -/
def execWrr (s : State) : Result := s.onRomPort fun k => (s.romPortOut k s.acc).advance 1

/-- WR0 to WR3: write status character `n` of the selected RAM register. -/
def State.writeSelectedStatus (s : State) (n : Fin 4) : Result :=
  s.onSelected fun r => (s.writeStatus r.b r.g n s.acc).advance 1

/-- WR0, R173. -/
def execWr0 (s : State) : Result := s.writeSelectedStatus 0

/-- WR1, R174. -/
def execWr1 (s : State) : Result := s.writeSelectedStatus 1

/-- WR2, R175. -/
def execWr2 (s : State) : Result := s.writeSelectedStatus 2

/-- WR3, R176. -/
def execWr3 (s : State) : Result := s.writeSelectedStatus 3

/-- SBM, R183. -/
def execSbm (s : State) : Result :=
  s.onSelected fun r => (s.setSum (subSum s.acc (s.readMain r.b r.a) s.cy)).advance 1

/-- RDM, R177. -/
def execRdm (s : State) : Result := s.onSelected fun r => (s.setAcc (s.readMain r.b r.a)).advance 1

/-- RDR, R178: the platform's input on the port, not the latch (D26). -/
def execRdr (s : State) : Result := s.onRomPort fun k => (s.afterPort.setAcc (s.portLevel k)).advance 1

/-- ADM, R184. -/
def execAdm (s : State) : Result :=
  s.onSelected fun r => (s.setSum (addSum s.acc (s.readMain r.b r.a) s.cy)).advance 1

/-- RD0 to RD3: read status character `n` of the selected RAM register. -/
def State.readSelectedStatus (s : State) (n : Fin 4) : Result :=
  s.onSelected fun r => (s.setAcc (s.readStatus r.b r.g n)).advance 1

/-- RD0, R179. -/
def execRd0 (s : State) : Result := s.readSelectedStatus 0

/-- RD1, R180. -/
def execRd1 (s : State) : Result := s.readSelectedStatus 1

/-- RD2, R181. -/
def execRd2 (s : State) : Result := s.readSelectedStatus 2

/-- RD3, R182. -/
def execRd3 (s : State) : Result := s.readSelectedStatus 3

end Sys2Proof.Machine
end

