-- ==== Sys2Proof/Machine/Rotate.lean ====
section
/-! DEFINITION. `spec/43_rotate.md`. -/

namespace Sys2Proof.Machine

/-- RAL, R130. -/
def execRal (s : State) : Result := .next ((s.setSum (ralSum s.acc s.cy)).advance 1)

/-- RAR, R131. -/
def execRar (s : State) : Result := .next ((s.setSum (rarSum s.acc s.cy)).advance 1)

end Sys2Proof.Machine
end

