-- ==== Sys2Proof/Machine/Special.lean ====
section
/-! DEFINITION. `spec/48_special.md`. -/

namespace Sys2Proof.Machine

/-- `kbp(v)` of R190: the position of a single bit counted from 1, 0 for none, 15 for several (D17). -/
def kbp (v : Nibble) : Nibble :=
  match v.toNat with
  | 0 => 0
  | 1 => 1
  | 2 => 2
  | 4 => 3
  | 8 => 4
  | _ => 15

/-- KBP, R190. -/
def execKbp (s : State) : Result := .next ((s.setAcc (kbp s.acc)).advance 1)

/-- DCL, R191: `BANK <- ACC[2:0]` (D18), `SRCADDR <- none` (D19). -/
def execDcl (s : State) : Result :=
  .next (((s.setBank (s.acc.extractLsb' 0 3)).setSrcaddr none).advance 1)

end Sys2Proof.Machine
end

