-- ==== Sys2Proof/Machine/Transfer.lean ====
section
/-! DEFINITION. `spec/44_data_transfer.md`. -/

namespace Sys2Proof.Machine

/-- LD r, R140. -/
def execLd (r : Reg) (s : State) : Result := .next ((s.setAcc (s.readReg r)).advance 1)

/-- XCH r, R141: both are read before either is written. -/
def execXch (r : Reg) (s : State) : Result := .next (((s.setAcc (s.readReg r)).writeReg r s.acc).advance 1)

/-- LDM d, R142. -/
def execLdm (d : Nibble) (s : State) : Result := .next ((s.setAcc d).advance 1)

/-- TCC, R143. -/
def execTcc (s : State) : Result := .next (((s.setAcc (s.cy.setWidth 4)).setCy 0).advance 1)

/-- TCS, R144: `ACC <- 9 + CY`; `CY` is cleared (D16). -/
def execTcs (s : State) : Result := .next (((s.setAcc (9 + s.cy.setWidth 4)).setCy 0).advance 1)

end Sys2Proof.Machine
end

