-- ==== Sys2Proof/Machine/Dispatch.lean ====
section
/-! DEFINITION. What each instruction does: one arm per constructor. -/

namespace Sys2Proof.Machine

def exec (i : Instr) (s : State) : Host.Outcome State Fault Refusal :=
  match i with
  | .nop => Sys2Proof.Machine.execNop s
  | .jcn c a => Sys2Proof.Machine.execJcn c a s
  | .fim p d => Sys2Proof.Machine.execFim p d s
  | .src p => Sys2Proof.Machine.execSrc p s
  | .fin p => Sys2Proof.Machine.execFin p s
  | .jin p => Sys2Proof.Machine.execJin p s
  | .jun a => Sys2Proof.Machine.execJun a s
  | .jms a => Sys2Proof.Machine.execJms a s
  | .inc r => Sys2Proof.Machine.execInc r s
  | .isz r a => Sys2Proof.Machine.execIsz r a s
  | .add r => Sys2Proof.Machine.execAdd r s
  | .sub r => Sys2Proof.Machine.execSub r s
  | .ld r => Sys2Proof.Machine.execLd r s
  | .xch r => Sys2Proof.Machine.execXch r s
  | .bbl d => Sys2Proof.Machine.execBbl d s
  | .ldm d => Sys2Proof.Machine.execLdm d s
  | .wrm => Sys2Proof.Machine.execWrm s
  | .wmp => Sys2Proof.Machine.execWmp s
  | .wrr => Sys2Proof.Machine.execWrr s
  | .wr0 => Sys2Proof.Machine.execWr0 s
  | .wr1 => Sys2Proof.Machine.execWr1 s
  | .wr2 => Sys2Proof.Machine.execWr2 s
  | .wr3 => Sys2Proof.Machine.execWr3 s
  | .sbm => Sys2Proof.Machine.execSbm s
  | .rdm => Sys2Proof.Machine.execRdm s
  | .rdr => Sys2Proof.Machine.execRdr s
  | .adm => Sys2Proof.Machine.execAdm s
  | .rd0 => Sys2Proof.Machine.execRd0 s
  | .rd1 => Sys2Proof.Machine.execRd1 s
  | .rd2 => Sys2Proof.Machine.execRd2 s
  | .rd3 => Sys2Proof.Machine.execRd3 s
  | .clb => Sys2Proof.Machine.execClb s
  | .clc => Sys2Proof.Machine.execClc s
  | .iac => Sys2Proof.Machine.execIac s
  | .cmc => Sys2Proof.Machine.execCmc s
  | .cma => Sys2Proof.Machine.execCma s
  | .ral => Sys2Proof.Machine.execRal s
  | .rar => Sys2Proof.Machine.execRar s
  | .tcc => Sys2Proof.Machine.execTcc s
  | .dac => Sys2Proof.Machine.execDac s
  | .tcs => Sys2Proof.Machine.execTcs s
  | .stc => Sys2Proof.Machine.execStc s
  | .daa => Sys2Proof.Machine.execDaa s
  | .kbp => Sys2Proof.Machine.execKbp s
  | .dcl => Sys2Proof.Machine.execDcl s

end Sys2Proof.Machine
end

