-- ==== Sys2Proof/Machine/Step.lean ====
section
/-! DEFINITION. One step: fetch, decode, execute (`spec/20_memory.md` R45, `spec/30_encoding.md` R82). Nothing happens
between two instructions (`spec/60_exceptions.md` R205). -/

namespace Sys2Proof.Machine

/-- The instruction at `pc`, run to completion, or the fault of an unassigned first byte. -/
def step (s : State) : Host.Outcome State Fault Refusal :=
  match s.fetch with
  | .error f => raise f
  | .ok i => exec i s

/-- The state with an opcode-table word placed in ROM at `pc`, and zeros up to two bytes (logs 2, 8). -/
def State.withFetchWord (s : State) (nbits w : Nat) : State :=
  (s.placeRom s.pc (tableWordBytes nbits w).1).placeRom (s.nextPc 1) (tableWordBytes nbits w).2

end Sys2Proof.Machine
end

