-- ==== Sys2Proof/Machine/Assembler.lean ====
section
/-! DEFINITION. The assembler as far as the source shows it (`spec/30_encoding.md` R87 to R91): source text, operand
forms, labels, the condition `NZ`, and the bytes. What the source does not show is log 9. -/

namespace Sys2Proof.Machine

/-- Why a source is rejected. -/
inductive AsmError where
  /-- The line is not of the form of R87. -/
  | badLine
  /-- The mnemonic is no row of the instruction tables; there are no pseudo-instructions (R91). -/
  | unknownMnemonic (m : String)
  /-- The operands are not of the form of R88, or out of range. -/
  | badOperands (m : String)
  /-- An operand names no label of the program. -/
  | unknownLabel (l : String)
  /-- Two lines define one label. -/
  | duplicateLabel (l : String)
  /-- A JCN or ISZ names a label in another page than `next(2)` (R90). -/
  | otherPage (l : String)
  /-- The program is longer than program memory. -/
  | tooLong
  deriving DecidableEq, Repr

/-! ### Source text (R87) -/

def isBlank (c : Char) : Bool := c == ' ' || c == '\t' || c == '\r'

/-- Without blanks at either end. -/
def trimBlanks (cs : List Char) : List Char := ((cs.dropWhile isBlank).reverse.dropWhile isBlank).reverse

/-- The pieces between separators. -/
def splitAtChar (sep : Char) : List Char → List (List Char)
  | [] => [[]]
  | c :: cs =>
    if c == sep then [] :: splitAtChar sep cs
    else
      match splitAtChar sep cs with
      | [] => [[c]]
      | p :: ps => (c :: p) :: ps

/-- The value of a digit. -/
def digitValue (c : Char) : Option Nat :=
  if '0' ≤ c ∧ c ≤ '9' then some (c.toNat - '0'.toNat)
  else if 'a' ≤ c ∧ c ≤ 'f' then some (c.toNat - 'a'.toNat + 10)
  else if 'A' ≤ c ∧ c ≤ 'F' then some (c.toNat - 'A'.toNat + 10)
  else none

/-- Digits to a number, `acc` being the number so far. -/
def digitsValue (base : Nat) : (acc : Nat) → List Char → Option Nat
  | acc, [] => some acc
  | acc, c :: cs =>
    match digitValue c with
    | some d => if d < base then digitsValue base (acc * base + d) cs else none
    | none => none

/-- "Numbers are decimal by default; `0x` introduces hexadecimal" (R88); the spec's own texts also write `0b`. -/
def parseNumber : List Char → Option Nat
  | [] => none
  | '0' :: 'x' :: d :: ds => digitsValue 16 0 (d :: ds)
  | '0' :: 'b' :: d :: ds => digitsValue 2 0 (d :: ds)
  | d :: ds => digitsValue 10 0 (d :: ds)

/-- A decimal digit. -/
def isDigit (c : Char) : Bool := decide ('0' ≤ c ∧ c ≤ '9')

/-- A name, of a label or a condition: at least one character, the first no digit, none a blank or a comma. The spec shows
names and does not say what a name is: DESIGN CHOICE, log 9. -/
def isName : List Char → Bool
  | [] => false
  | c :: cs => !isDigit c && !(c :: cs).any fun d => isBlank d || d == ','

/-- An operand: it begins with a digit and is a number, or it is a name (log 9). -/
def parseOperand (cs : List Char) : Except AsmError Operand :=
  if isName cs then .ok (.sym (String.ofList cs))
  else
    match parseNumber cs with
    | some n => .ok (.num n)
    | none => .error .badLine

/-- `OPCODE  OPERAND`, the operands separated by commas. -/
def parseOperation (cs : List Char) : Except AsmError (Option (String × List Operand)) :=
  match cs with
  | [] => .ok none
  | _ =>
    let name := cs.takeWhile fun c => !isBlank c
    let args := trimBlanks (cs.dropWhile fun c => !isBlank c)
    match args with
    | [] => .ok (some (String.ofList name, []))
    | _ =>
      match ((splitAtChar ',' args).map trimBlanks).mapM parseOperand with
      | .ok ops => .ok (some (String.ofList name, ops))
      | .error e => .error e

/-- A line `LABEL:  OPCODE  OPERAND     ; Comment`; a comment runs from `;` to the end of the line. A label must be a name
that an operand can write: the spec does not say which names a line may define. DESIGN CHOICE, log 9. -/
def parseLine (cs : List Char) : Except AsmError SourceLine :=
  match splitAtChar ':' (cs.takeWhile (· != ';')) with
  | [rest] =>
    match parseOperation (trimBlanks rest) with
    | .ok op => .ok { label := none, op := op }
    | .error e => .error e
  | [label, rest] =>
    if isName (trimBlanks label) then
      match parseOperation (trimBlanks rest) with
      | .ok op => .ok { label := some (String.ofList (trimBlanks label)), op := op }
      | .error e => .error e
    else .error .badLine
  | _ => .error .badLine

/-- The lines of a source. -/
def parseSource (text : String) : Except AsmError (List SourceLine) := (splitAtChar '\n' text.toList).mapM parseLine

/-! ### Operand forms (R88) -/

/-- The operands each mnemonic takes. -/
def operandKinds : String → Option (List OperandKind)
  | "ADD" | "SUB" | "INC" | "LD" | "XCH" => some [.reg]
  | "LDM" | "BBL" => some [.data4]
  | "SRC" | "FIN" | "JIN" => some [.pair]
  | "FIM" => some [.pair, .data8]
  | "JUN" | "JMS" => some [.addr12]
  | "JCN" => some [.cond, .addr8]
  | "ISZ" => some [.reg, .addr8]
  | m => if (opcodeTable.map (·.mnemonic)).contains m then some [] else none

/-- The register of a number in range. -/
def regOfNat (n : Nat) : Reg := regOfField (BitVec.ofNat 4 n)

/-- The pair of a number in range. -/
def pairOfNat (n : Nat) : RegPair := pairOfField (BitVec.ofNat 3 n ++ 0#1)

/-- The instruction of a mnemonic with operand numbers. -/
def buildInstr : String → List Nat → Option Instr
  | "NOP", [] => some .nop
  | "JCN", [c, a] => some (.jcn (condOfField (BitVec.ofNat 4 c)) (BitVec.ofNat 8 a))
  | "FIM", [p, d] => some (.fim (pairOfNat p) (BitVec.ofNat 8 d))
  | "SRC", [p] => some (.src (pairOfNat p))
  | "FIN", [p] => some (.fin (pairOfNat p))
  | "JIN", [p] => some (.jin (pairOfNat p))
  | "JUN", [a] => some (.jun (BitVec.ofNat 12 a))
  | "JMS", [a] => some (.jms (BitVec.ofNat 12 a))
  | "INC", [r] => some (.inc (regOfNat r))
  | "ISZ", [r, a] => some (.isz (regOfNat r) (BitVec.ofNat 8 a))
  | "ADD", [r] => some (.add (regOfNat r))
  | "SUB", [r] => some (.sub (regOfNat r))
  | "LD", [r] => some (.ld (regOfNat r))
  | "XCH", [r] => some (.xch (regOfNat r))
  | "BBL", [d] => some (.bbl (BitVec.ofNat 4 d))
  | "LDM", [d] => some (.ldm (BitVec.ofNat 4 d))
  | "WRM", [] => some .wrm
  | "WMP", [] => some .wmp
  | "WRR", [] => some .wrr
  | "WR0", [] => some .wr0
  | "WR1", [] => some .wr1
  | "WR2", [] => some .wr2
  | "WR3", [] => some .wr3
  | "SBM", [] => some .sbm
  | "RDM", [] => some .rdm
  | "RDR", [] => some .rdr
  | "ADM", [] => some .adm
  | "RD0", [] => some .rd0
  | "RD1", [] => some .rd1
  | "RD2", [] => some .rd2
  | "RD3", [] => some .rd3
  | "CLB", [] => some .clb
  | "CLC", [] => some .clc
  | "IAC", [] => some .iac
  | "CMC", [] => some .cmc
  | "CMA", [] => some .cma
  | "RAL", [] => some .ral
  | "RAR", [] => some .rar
  | "TCC", [] => some .tcc
  | "DAC", [] => some .dac
  | "TCS", [] => some .tcs
  | "STC", [] => some .stc
  | "DAA", [] => some .daa
  | "KBP", [] => some .kbp
  | "DCL", [] => some .dcl
  | _, _ => none

/-! ### Labels and bytes (R89, R90) -/

/-- A label and the ROM address it names. -/
abbrev Labels := List (String × Nat)

def Labels.find (ls : Labels) (l : String) : Option Nat := ls.lookup l

/-- The length of the instruction of a mnemonic. -/
def mnemonicLength (m : String) : Option Nat := (opcodeTable.find? (·.mnemonic == m)).map (·.length)

/-- Where each label stands: "the ROM address of the next instruction assembled after it", the program beginning at
`a`. -/
def collectLabels : (a : Nat) → Labels → List SourceLine → Except AsmError Labels
  | _, ls, [] => .ok ls
  | a, ls, line :: rest =>
    let length : Except AsmError Nat :=
      match line.op with
      | none => .ok 0
      | some (m, _) =>
        match mnemonicLength m with
        | some n => .ok n
        | none => .error (.unknownMnemonic m)
    match length, line.label with
    | .error e, _ => .error e
    | .ok n, none => collectLabels (a + n) ls rest
    | .ok n, some l =>
      match ls.find l with
      | some _ => .error (.duplicateLabel l)
      | none => collectLabels (a + n) ((l, a) :: ls) rest

/-- The condition `NZ`, `0b0011` (R89). -/
def conditionNZ : Nat := 0b0011

/-- The number an operand of a kind stands for, in an instruction whose `next(2)` is `after`. A label of JCN or ISZ gives
the low 8 bits of its address, and only a label in the page of `next(2)` will do (R90). -/
def resolveOperand (ls : Labels) (after : Nat) : OperandKind → Operand → Except AsmError Nat
  | _, .num n => .ok n
  | .cond, .sym l => if l == "NZ" then .ok conditionNZ else .error (.unknownLabel l)
  | .addr12, .sym l =>
    match ls.find l with
    | some a => .ok a
    | none => .error (.unknownLabel l)
  | .addr8, .sym l =>
    match ls.find l with
    | some a => if a / 256 = after % 4096 / 256 then .ok (a % 256) else .error (.otherPage l)
    | none => .error (.unknownLabel l)
  | .reg, .sym l | .pair, .sym l | .data4, .sym l | .data8, .sym l => .error (.unknownLabel l)

/-- The operand numbers of an operation, one for each kind. -/
def resolveOperands (m : String) (ls : Labels) (after : Nat) :
    List OperandKind → List Operand → Except AsmError (List Nat)
  | [], [] => .ok []
  | k :: ks, o :: os =>
    match resolveOperand ls after k o, resolveOperands m ls after ks os with
    | .ok n, .ok ns => .ok (n :: ns)
    | .error e, _ => .error e
    | _, .error e => .error e
  | _, _ => .error (.badOperands m)

/-- The instruction of an operation standing at address `a`. -/
def assembleOperation (ls : Labels) (a : Nat) (m : String) (ops : List Operand) : Except AsmError Instr :=
  match operandKinds m with
  | none => .error (.unknownMnemonic m)
  | some kinds =>
    match resolveOperands m ls (a + 2) kinds ops with
    | .error e => .error e
    | .ok ns =>
      if operandsAdmitted kinds ns then
        match buildInstr m ns with
        | some i => .ok i
        | none => .error (.badOperands m)
      else .error (.badOperands m)

/-- The instructions of the lines, the first standing at address `a`. -/
def assembleLines (ls : Labels) : (a : Nat) → List SourceLine → Except AsmError (List Instr)
  | _, [] => .ok []
  | a, line :: rest =>
    match line.op with
    | none => assembleLines ls a rest
    | some (m, ops) =>
      match assembleOperation ls a m ops with
      | .error e => .error e
      | .ok i =>
        match assembleLines ls (a + (encode i).length) rest with
        | .error e => .error e
        | .ok is => .ok (i :: is)

/-- The instructions of a program assembled from address 0x000 (R90; D29). -/
def assemble (lines : List SourceLine) : Except AsmError (List Instr) :=
  match collectLabels 0 [] lines with
  | .error e => .error e
  | .ok ls =>
    match assembleLines ls 0 lines with
    | .error e => .error e
    | .ok is => if (is.flatMap encode).length ≤ Config.romSize then .ok is else .error .tooLong

/-- The bytes of a source text. -/
def assembleText (text : String) : Except AsmError (List Byte) :=
  match parseSource text with
  | .error e => .error e
  | .ok lines =>
    match assemble lines with
    | .error e => .error e
    | .ok is => .ok (is.flatMap encode)

/-- The ROM image of bytes from address 0x000. -/
def romImage (bytes : List Byte) : Memory 8 := Memory.writeList [] 0 bytes

end Sys2Proof.Machine
end

