-- ==== Sys2Proof/Machine/Run.lean ====
section
/-! DEFINITION. A run and its end (`spec/70_reset_and_hazards.md` R242; `spec/60_exceptions.md` R201), and its time
(R240). -/

namespace Sys2Proof.Machine

/-- How a run stands after some steps, with the number of instructions completed. -/
inductive RunStatus where
  /-- `pc = END` at an instruction boundary: the run is over. -/
  | ended (n : Nat) (s : State)
  /-- A model fault: the state is the one before the faulting instruction; the run is not over and has no end state. -/
  | faulted (n : Nat) (f : Fault) (s : State)
  /-- An instruction without a meaning. -/
  | refused (n : Nat) (r : Refusal) (s : State)
  /-- Neither so far. -/
  | running (n : Nat) (s : State)
  deriving DecidableEq, Repr

/-- At most `k` further steps of a run with launch parameter `END`, `n` instructions being completed. -/
def runFrom (endAt : Addr) : (k n : Nat) → State → RunStatus
  | 0, n, s => if s.pc = endAt then .ended n s else .running n s
  | k + 1, n, s =>
    if s.pc = endAt then .ended n s
    else
      match step s with
      | .next t => runFrom endAt k (n + 1) t
      | .fault f => .faulted n f s
      | .refused r => .refused n r s

/-- A run of at most `k` instructions from its start. -/
def runUntil (endAt : Addr) (k : Nat) (s : State) : RunStatus := runFrom endAt k 0 s

/-- Instructions executed one after another from a state, stopping at the first fault or refusal: what straight-line code
does, without its fetches. -/
def execSeq : List Instr → State → Result
  | [], s => .next s
  | i :: is, s =>
    match exec i s with
    | .next t => execSeq is t
    | .fault f => .fault f
    | .refused r => .refused r

/-- The time `n` instructions take in tenths of a microsecond: each takes eight clock periods (R240). -/
def runTimeTenths (n : Nat) : Nat := n * (Config.instructionCycles.length * Config.clockPeriodTenths)

end Sys2Proof.Machine
end

