-- ==== Sys2Proof/Safety.lean ====
section
/-! DEFINITION. What claims are stated in: which instructions may write which state, the invariant of the state, and safe
runs. -/

namespace Sys2Proof

/-- "The instructions that write `ACC`" (`spec/10_state.md` R10). -/
def Instr.writesAcc : Instr → Bool
  | .add _ | .sub _ | .ld _ | .xch _ | .bbl _ | .ldm _ | .sbm | .rdm | .rdr | .adm | .rd0 | .rd1 | .rd2
  | .rd3 | .clb | .iac | .cma | .ral | .rar | .tcc | .dac | .tcs | .daa | .kbp => true
  | .nop | .jcn _ _ | .fim _ _ | .src _ | .fin _ | .jin _ | .jun _ | .jms _ | .inc _ | .isz _ _ | .wrm
  | .wmp | .wrr | .wr0 | .wr1 | .wr2 | .wr3 | .clc | .cmc | .stc | .dcl => false

/-- "The instructions that write `CY`" (`spec/10_state.md` R11). -/
def Instr.writesCy : Instr → Bool
  | .inc _ | .add _ | .sub _ | .sbm | .adm | .clb | .clc | .iac | .cmc | .ral | .rar | .tcc | .dac | .tcs
  | .stc | .daa => true
  | .nop | .jcn _ _ | .fim _ _ | .src _ | .fin _ | .jin _ | .jun _ | .jms _ | .isz _ _ | .ld _ | .xch _
  | .bbl _ | .ldm _ | .wrm | .wmp | .wrr | .wr0 | .wr1 | .wr2 | .wr3 | .rdm | .rdr | .rd0 | .rd1 | .rd2
  | .rd3 | .cma | .kbp | .dcl => false

/-- The fifteen RAM and port instructions, which need `SRCADDR` (`spec/10_state.md` R20). -/
def Instr.usesSrcaddr : Instr → Bool
  | .wrm | .wmp | .wrr | .wr0 | .wr1 | .wr2 | .wr3 | .sbm | .rdm | .rdr | .adm | .rd0 | .rd1 | .rd2 | .rd3 => true
  | .nop | .jcn _ _ | .fim _ _ | .src _ | .fin _ | .jin _ | .jun _ | .jms _ | .inc _ | .isz _ _ | .add _
  | .sub _ | .ld _ | .xch _ | .bbl _ | .ldm _ | .clb | .clc | .iac | .cmc | .cma | .ral | .rar | .tcc | .dac
  | .tcs | .stc | .daa | .kbp | .dcl => false

/-- The instructions that read `BANK` (`spec/10_state.md` R19): all RAM and port instructions but WRR and RDR. -/
def Instr.usesBank : Instr → Bool
  | .wrm | .wmp | .wr0 | .wr1 | .wr2 | .wr3 | .sbm | .rdm | .adm | .rd0 | .rd1 | .rd2 | .rd3 => true
  | .nop | .jcn _ _ | .fim _ _ | .src _ | .fin _ | .jin _ | .jun _ | .jms _ | .inc _ | .isz _ _ | .add _
  | .sub _ | .ld _ | .xch _ | .bbl _ | .ldm _ | .wrr | .rdr | .clb | .clc | .iac | .cmc | .cma | .ral | .rar
  | .tcc | .dac | .tcs | .stc | .daa | .kbp | .dcl => false

/-- The instructions that set `pc` otherwise than to the address after them (`spec/10_state.md` R15). -/
def Instr.transfersControl : Instr → Bool
  | .jcn _ _ | .jin _ | .jun _ | .jms _ | .isz _ _ | .bbl _ => true
  | .nop | .fim _ _ | .src _ | .fin _ | .inc _ | .add _ | .sub _ | .ld _ | .xch _ | .ldm _ | .wrm | .wmp
  | .wrr | .wr0 | .wr1 | .wr2 | .wr3 | .sbm | .rdm | .rdr | .adm | .rd0 | .rd1 | .rd2 | .rd3 | .clb | .clc
  | .iac | .cmc | .cma | .ral | .rar | .tcc | .dac | .tcs | .stc | .daa | .kbp | .dcl => false

end Sys2Proof

namespace Sys2Proof.Machine

/-- The index registers an instruction writes (`spec/10_state.md` R12, R13). -/
def writtenRegs : Instr → List Reg
  | .inc r | .isz r _ | .xch r => [r]
  | .fim p _ | .fin p => [evenReg p, oddReg p]
  | .nop | .jcn _ _ | .src _ | .jin _ | .jun _ | .jms _ | .add _ | .sub _ | .ld _ | .bbl _ | .ldm _ | .wrm
  | .wmp | .wrr | .wr0 | .wr1 | .wr2 | .wr3 | .sbm | .rdm | .rdr | .adm | .rd0 | .rd1 | .rd2 | .rd3 | .clb
  | .clc | .iac | .cmc | .cma | .ral | .rar | .tcc | .dac | .tcs | .stc | .daa | .kbp | .dcl => []

/-- The RAM location an instruction stores to on a selection (`spec/10_state.md` R23, R24). -/
def storeLoc (r : RamSelection) : Instr → Option Nat
  | .wrm => some (mainLoc r.b r.a)
  | .wr0 => some (statusLoc r.b r.g 0)
  | .wr1 => some (statusLoc r.b r.g 1)
  | .wr2 => some (statusLoc r.b r.g 2)
  | .wr3 => some (statusLoc r.b r.g 3)
  | .nop | .jcn _ _ | .fim _ _ | .src _ | .fin _ | .jin _ | .jun _ | .jms _ | .inc _ | .isz _ _ | .add _
  | .sub _ | .ld _ | .xch _ | .bbl _ | .ldm _ | .wmp | .wrr | .sbm | .rdm | .rdr | .adm | .rd0 | .rd1 | .rd2
  | .rd3 | .clb | .clc | .iac | .cmc | .cma | .ral | .rar | .tcc | .dac | .tcs | .stc | .daa | .kbp | .dcl => none

/-- The invariant: at most three return addresses (`spec/10_state.md` R17), and both memories in canonical form within
their sizes (`spec/00_scope.md` R2). -/
abbrev State.Inv (s : State) : Prop :=
  s.stk.length ≤ Config.stackDepth ∧ s.rom.wf Config.romSize = true ∧ s.ram.wf Config.ramSize = true

/-- The launch parameters are in canonical form. -/
abbrev Launch.Valid (p : Launch) : Prop := p.rom.wf Config.romSize = true ∧ p.ram.wf Config.ramSize = true

/-- A run of at most `k` instructions that meets no fault ("a claim about the program must have 'no fault' as a premise
or prove it", `spec/60_exceptions.md` R201). -/
def SafeRun (endAt : Addr) (k : Nat) (s : State) : Prop :=
  match runUntil endAt k s with
  | .ended _ _ | .running _ _ => True
  | .faulted _ _ _ | .refused _ _ _ => False

end Sys2Proof.Machine
end

