-- ==== Sys2Proof/Certificates/Slice0/Obligations.lean ====
section
/-! DEFINITION. What the provers are asked to prove, from the rules of `spec/`. A statement that rests on a decision of
the spec (`spec/92_eei_decisions.md`) or on a choice of the model names it. -/

open Sys2Proof Sys2Proof.Machine

/-- For every instruction, with every operand at every value, and whatever bytes follow, decoding the encoder's bytes
gives the instruction and leaves what follows. -/
def Obligations.DecodeInvertsEncode : Prop :=
  ∀ (i : Instr) (rest : List Byte), i.wellFormed = true → decode (encode i ++ rest) = .ok (i, rest)

/-- Whenever the decoder reads an instruction at the head of a list of bytes, the bytes it consumed are exactly the
encoder's bytes of that instruction: each instruction has one encoding and no bit is ignored. -/
def Obligations.EncodeInvertsDecode : Prop :=
  ∀ (bytes rest : List Byte) (i : Instr), decode bytes = .ok (i, rest) → encode i ++ rest = bytes

/-- The decoder rejects a first byte by name, whatever follows it, exactly when the byte is 0x01 to 0x0F, 0xE3, 0xFE or
0xFF. -/
def Obligations.EighteenFirstBytesUnassigned : Prop :=
  ∀ (b : Byte) (rest : List Byte), decode (b :: rest) = .error (.unassigned b) ↔
    (0x01 ≤ b.toNat ∧ b.toNat ≤ 0x0F) ∨ b = 0xE3 ∨ b = 0xFE ∨ b = 0xFF

/-- An instruction takes two bytes when its first byte has bits [7:4] = 0001, 0100, 0101 or 0111, or 0010 with bit 0
clear, and one byte otherwise. The spec marks this as derived from the tables. -/
def Obligations.LengthFollowsFirstByte : Prop :=
  ∀ (b : Byte) (rest rest' : List Byte) (i : Instr), decode (b :: rest) = .ok (i, rest') →
    (if b.toNat / 16 = 1 ∨ b.toNat / 16 = 4 ∨ b.toNat / 16 = 5 ∨ b.toNat / 16 = 7 ∨
        (b.toNat / 16 = 2 ∧ b.toNat % 2 = 0)
      then ∃ b2, rest = b2 :: rest' else rest = rest')

/-- The bytes of the spec's encoding table (one or more per format) decode to the instructions they stand for. -/
def Obligations.WordsOfEachFormatDecode : Prop :=
  ∀ rest : List Byte,
    decode (0b00000000 :: rest) = .ok (.nop, rest) ∧
    decode (0b10001011 :: rest) = .ok (.add 11, rest) ∧
    decode (0b11011100 :: rest) = .ok (.ldm 12, rest) ∧
    decode (0b11000011 :: rest) = .ok (.bbl 3, rest) ∧
    decode (0b00101011 :: rest) = .ok (.src 5, rest) ∧
    decode (0b00111111 :: rest) = .ok (.jin 7, rest) ∧
    decode (0b00111110 :: rest) = .ok (.fin 7, rest) ∧
    decode (0b00101010 :: 0b11000100 :: rest) = .ok (.fim 5 0xC4, rest) ∧
    decode (0b01001001 :: 0b10100111 :: rest) = .ok (.jun 0x9A7, rest) ∧
    decode (0b01010000 :: 0b00000101 :: rest) = .ok (.jms 0x005, rest) ∧
    decode (0b00010100 :: 0b10000000 :: rest) = .ok (.jcn ⟨false, true, false, false⟩ 0x80, rest) ∧
    decode (0b01111111 :: 0b11111111 :: rest) = .ok (.isz 15 0xFF, rest) ∧
    decode (0b11111101 :: rest) = .ok (.dcl, rest)

/-- When the byte of ROM at pc and the byte at pc + 1 (modulo 4096) begin with a well-formed instruction, a step is that
instruction's effect on the state, with nothing added around it: the instruction itself sets pc. -/
def Obligations.StepRunsTheInstructionAtPc : Prop :=
  ∀ (s : State) (i : Instr) (rest : List Byte),
    decode [s.readRom s.pc, s.readRom (s.pc + 1)] = .ok (i, rest) → i.wellFormed = true → step s = exec i s

/-- A step faults with IllegalInstruction, recording pc and the byte, exactly when the byte at pc is one of the eighteen
unassigned values; exec itself never raises it (the spec's decisions D22, D24). -/
def Obligations.StepFaultsOnUnassignedByte : Prop :=
  (∀ s : State, step s = .fault (.illegalInstruction s.pc (s.readRom s.pc)) ↔
    (0x01 ≤ (s.readRom s.pc).toNat ∧ (s.readRom s.pc).toNat ≤ 0x0F) ∨ s.readRom s.pc = 0xE3 ∨
      s.readRom s.pc = 0xFE ∨ s.readRom s.pc = 0xFF) ∧
  ∀ (i : Instr) (s : State) (a : Addr) (b : Byte), exec i s ≠ .fault (.illegalInstruction a b)

/-- No instruction in any state, and no step, is refused: each goes on or raises one of the five model faults. -/
def Obligations.NoInstructionIsRefused : Prop :=
  (∀ (i : Instr) (s : State) (r : Refusal), exec i s ≠ .refused r) ∧ ∀ (s : State) (r : Refusal), step s ≠ .refused r

/-- In a state that meets the invariant, an instruction faults exactly so: JMS with three stacked addresses
(StackOverflow), BBL with none (StackUnderflow), a RAM or port instruction with no SRC address (RamAddressUnset),
and, with an address, one that needs a bank while BANK selects none (RamBankInvalid). The table is the spec's
decisions D18, D21, D23, D24. -/
def Obligations.FaultsExactlyWhereTabled : Prop :=
  ∀ (i : Instr) (s : State) (f : Fault), s.Inv → (exec i s = .fault f ↔
    ((∃ a, i = .jms a) ∧ s.stk.length = 3 ∧ f = .stackOverflow s.pc) ∨
    ((∃ d, i = .bbl d) ∧ s.stk.length = 0 ∧ f = .stackUnderflow s.pc) ∨
    (i.usesSrcaddr = true ∧ s.srcaddr = none ∧ f = .ramAddressUnset s.pc) ∨
    (i.usesBank = true ∧ s.srcaddr ≠ none ∧ s.selectedBank = none ∧ f = .ramBankInvalid s.pc s.bank))

/-- Right after reset ACC, CY and all index registers are 0, pc is 0x000, STK is empty, BANK is 0, SRCADDR is none, no
output event has happened, and ROM, RAM and the port latches hold what the launch gives; State.reset is the launch
of Launch.empty, in which every byte of ROM, every RAM character and every port latch is 0 and no input is lined up;
and under its default BANK_MAP the codes 0, 1, 2 and 4 of BANK select banks 0 to 3 and the other four none. The
values after reset are the spec's decisions D1 to D5; the contents of the empty launch are the model's choice (logs
1, 2, 4); the default map is presumed from the family (log 5; R21, decision D18). -/
def Obligations.LaunchGivesResetState : Prop :=
  (∀ p : Launch, (State.launch p).acc = 0 ∧ (State.launch p).cy = 0 ∧ (∀ r, (State.launch p).readReg r = 0) ∧
    (State.launch p).pc = 0x000 ∧ (State.launch p).stk = [] ∧ (State.launch p).bank = 0 ∧
    (State.launch p).srcaddr = none ∧ (State.launch p).rom = p.rom ∧ (State.launch p).ram = p.ram ∧
    (State.launch p).ramPort = p.ramPort ∧ (State.launch p).romPort = p.romPort ∧
    (State.launch p).bankMap = p.bankMap ∧ (State.launch p).events = []) ∧
  State.reset = State.launch Launch.empty ∧
  ((∀ a, State.reset.readRom a = 0) ∧ (∀ b a, State.reset.readMain b a = 0) ∧
    (∀ b g n, State.reset.readStatus b g n = 0) ∧ (∀ b c, State.reset.readRamPort b c = 0) ∧
    (∀ k, State.reset.readRomPort k = 0) ∧ State.reset.testInputs = [] ∧ State.reset.portInputs = []) ∧
  ∀ s : State, s.bankMap = State.reset.bankMap →
    (s.bank = 0 → s.selectedBank = some 0) ∧ (s.bank = 1 → s.selectedBank = some 1) ∧
    (s.bank = 2 → s.selectedBank = some 2) ∧ (s.bank = 3 → s.selectedBank = none) ∧
    (s.bank = 4 → s.selectedBank = some 3) ∧ (s.bank = 5 → s.selectedBank = none) ∧
    (s.bank = 6 → s.selectedBank = none) ∧ (s.bank = 7 → s.selectedBank = none)

/-- For every launch whose memories are in canonical form, and for State.reset, at most three addresses are stacked and
ROM and RAM are in canonical form within their sizes. -/
def Obligations.InvariantHoldsAfterReset : Prop :=
  (∀ p : Launch, p.Valid → (State.launch p).Inv) ∧ State.reset.Inv

/-- From every state in which at most three addresses are stacked and ROM and RAM are in canonical form within 4096
bytes and 1280 characters, a step that goes on leads to such a state. -/
def Obligations.StepKeepsInvariant : Prop :=
  ∀ s t : State, s.Inv → step s = .next t → t.Inv

/-- No step changes program memory or BANK_MAP, so every later fetch reads the launch parameter ROM (the spec derives
this from the complete list; D5). -/
def Obligations.StepNeverChangesProgramMemory : Prop :=
  ∀ s t : State, step s = .next t → t.rom = s.rom ∧ t.bankMap = s.bankMap ∧ ∀ a, t.readRom a = s.readRom a

/-- An instruction outside the spec's list of those that write ACC leaves ACC unchanged; one outside the list of those
that write CY, ISZ among them, leaves CY unchanged (decision D30). -/
def Obligations.OnlyListedInstructionsWriteAccAndCarry : Prop :=
  ∀ (i : Instr) (s t : State), exec i s = .next t →
    (i.writesAcc = false → t.acc = s.acc) ∧ (i.writesCy = false → t.cy = s.cy)

/-- JMS puts one address first and BBL removes the first; every other instruction leaves the stack alone, and from a
state with at most three return addresses (12 bits each) none leads to more. -/
def Obligations.OnlyCallAndReturnTouchStack : Prop :=
  ∀ (i : Instr) (s t : State), s.Inv → exec i s = .next t → t.stk.length ≤ 3 ∧
    ((∃ a, i = .jms a) → ∃ ret : Addr, t.stk = ret :: s.stk) ∧
    ((∃ d, i = .bbl d) → ∃ ret : Addr, s.stk = ret :: t.stk) ∧
    ((∀ a, i ≠ .jms a) → (∀ d, i ≠ .bbl d) → t.stk = s.stk)

/-- Every instruction but DCL leaves BANK unchanged, and every instruction but SRC and DCL leaves SRCADDR unchanged
(widths and the effect of DCL on SRCADDR are decisions D18, D19). -/
def Obligations.OnlyDclAndSrcWriteControlState : Prop :=
  ∀ (i : Instr) (s t : State), exec i s = .next t →
    (i ≠ .dcl → t.bank = s.bank) ∧ (i ≠ .dcl → (∀ p, i ≠ .src p) → t.srcaddr = s.srcaddr)

/-- XCH, INC and ISZ may change their register, FIM and FIN the two registers of their pair, and every other index
register, and all sixteen for every other instruction, keep their values. -/
def Obligations.OnlyNamedRegistersChange : Prop :=
  ∀ (i : Instr) (s t : State) (r : Reg), exec i s = .next t → r ∉ writtenRegs i → t.readReg r = s.readReg r

/-- WRM and WR0 to WR3 change no location but the one their selection gives, computed with the functions the meanings
use; every other instruction leaves all of RAM as it was. -/
def Obligations.RamChangesOnlyAtStoreAddress : Prop :=
  ∀ (i : Instr) (s t : State) (loc : Nat), s.Inv → exec i s = .next t →
    (∀ r, s.sel = .ok r → storeLoc r i ≠ some loc) → t.ram.read loc = s.ram.read loc

/-- WMP adds one RAM-port event, with the bank and chip that its selection gives and the value of ACC, and leaves the
ROM-port latches alone; WRR adds one ROM-port event, with the port that its selection gives and the value of ACC,
and leaves the RAM-port latches alone; every other instruction leaves latches and events unchanged. The selections
are computed with the functions the meanings use (fields of the address: decision D20). -/
def Obligations.OutputsOnlyFromPortWrites : Prop :=
  ∀ (i : Instr) (s t : State), exec i s = .next t →
    (i = .wmp → t.romPort = s.romPort ∧ ∃ r, s.sel = .ok r ∧ t.events = s.events ++ [.ramPort r.b r.c s.acc]) ∧
    (i = .wrr → t.ramPort = s.ramPort ∧ ∃ k, s.rsel = .ok k ∧ t.events = s.events ++ [.romPort k s.acc]) ∧
    (i ≠ .wmp → i ≠ .wrr → t.ramPort = s.ramPort ∧ t.romPort = s.romPort ∧ t.events = s.events)

/-- A JCN with condition bit 3 set uses up one draw of the test pin, RDR one draw of a ROM port input, and no other
instruction draws. The draws are counted in the model's own fields (log 4; decisions D25, D26). -/
def Obligations.InputsDrawnOnlyWhenAsked : Prop :=
  ∀ (i : Instr) (s t : State), exec i s = .next t →
    ((∃ c a, i = .jcn c a ∧ c.testPinZero = true) →
      t.testInputs = s.testInputs.tail ∧ t.testDraws = s.testDraws + 1) ∧
    ((¬ ∃ c a, i = .jcn c a ∧ c.testPinZero = true) →
      t.testInputs = s.testInputs ∧ t.testDraws = s.testDraws) ∧
    (i = .rdr → t.portInputs = s.portInputs.tail ∧ t.portDraws = s.portDraws + 1) ∧
    (i ≠ .rdr → t.portInputs = s.portInputs ∧ t.portDraws = s.portDraws)

/-- Every instruction but JUN, JMS, JCN, ISZ, JIN and BBL leaves pc at the address after its bytes, modulo 4096
(decision D6 for the wrap). -/
def Obligations.PcAdvancesByLengthUnlessTransfer : Prop :=
  ∀ (i : Instr) (s t : State), i.transfersControl = false → exec i s = .next t →
    t.pc.toNat = (s.pc.toNat + (encode i).length) % 4096

/-- With any other stack in its place, every instruction but JMS and BBL does the same and leaves that stack as it is:
no instruction reads STK into a register. -/
def Obligations.StackIsInvisibleToOtherInstructions : Prop :=
  ∀ (i : Instr) (s t : State) (k : List Addr), (∀ a, i ≠ .jms a) → (∀ d, i ≠ .bbl d) → exec i s = .next t →
    exec i { s with stk := k } = .next { t with stk := k }

/-- With any other port latches and events, an instruction completes as well, and what it leaves elsewhere is the same:
no instruction reads a RAM port, and RDR does not read the ROM-port latch (decision D26). -/
def Obligations.OutputsAreNeverReadBack : Prop :=
  ∀ (i : Instr) (s t : State) (p q : Vector Nibble 16) (e : List OutputEvent), exec i s = .next t →
    ∃ u, exec i { s with ramPort := p, romPort := q, events := e } = .next u ∧
      { u with ramPort := t.ramPort, romPort := t.romPort, events := t.events } = t

/-- A byte decodes to NOP exactly when it is 0x00, 0x01 to 0x0F are unassigned, and NOP moves pc to the next address and
changes nothing else. -/
def Obligations.NopOnlyAdvancesPc : Prop :=
  (∀ (b : Byte) (rest rest' : List Byte), decode (b :: rest) = .ok (.nop, rest') ↔ b = 0x00 ∧ rest' = rest) ∧
  (∀ (b : Byte) (rest : List Byte), 0x01 ≤ b.toNat → b.toNat ≤ 0x0F → decode (b :: rest) = .error (.unassigned b)) ∧
  ∀ s : State, exec .nop s = .next { s with pc := s.pc + 1 }

/-- ADD r and, with an address set and a bank selected, ADM complete with ACC and CY the two base-16 digits of ACC +
operand + CY, and change nothing else but pc. The carry in is the spec's decision D12. -/
def Obligations.AddAndAdmAddOperandAndCarry : Prop :=
  (∀ (s : State) (r : Reg), ∃ t, exec (.add r) s = .next t ∧ t = { s with acc := t.acc, cy := t.cy, pc := s.pc + 1 } ∧
    16 * t.cy.toNat + t.acc.toNat = s.acc.toNat + (s.readReg r).toNat + s.cy.toNat) ∧
  ∀ (s : State) (addr : Byte) (b : Fin 4), s.srcaddr = some addr → s.selectedBank = some b →
    ∃ t, exec .adm s = .next t ∧ t = { s with acc := t.acc, cy := t.cy, pc := s.pc + 1 } ∧
      16 * t.cy.toNat + t.acc.toNat = s.acc.toNat + (s.readMain b addr).toNat + s.cy.toNat

/-- SUB r and, with an address set and a bank selected, SBM complete with ACC = ACC - operand - CY modulo 16 and CY = 1
exactly when there is no borrow, and change nothing else but pc. The polarity is the spec's decision D13. -/
def Obligations.SubAndSbmSubtractWithBorrow : Prop :=
  (∀ (s : State) (r : Reg), ∃ t, exec (.sub r) s = .next t ∧ t = { s with acc := t.acc, cy := t.cy, pc := s.pc + 1 } ∧
    16 * t.cy.toNat + t.acc.toNat + (s.readReg r).toNat + s.cy.toNat = s.acc.toNat + 16) ∧
  ∀ (s : State) (addr : Byte) (b : Fin 4), s.srcaddr = some addr → s.selectedBank = some b →
    ∃ t, exec .sbm s = .next t ∧ t = { s with acc := t.acc, cy := t.cy, pc := s.pc + 1 } ∧
      16 * t.cy.toNat + t.acc.toNat + (s.readMain b addr).toNat + s.cy.toNat = s.acc.toNat + 16

/-- INC r completes with CY : x[r] = x[r] + 1, every other register and ACC unchanged; IAC with CY : ACC = ACC + 1; DAC
with ACC = ACC - 1 modulo 16 and CY = 0 exactly when ACC was 0. The values of CY are the spec's decisions D13, D14. -/
def Obligations.IncIacDacCountByOne : Prop :=
  (∀ (s : State) (r : Reg), ∃ t, exec (.inc r) s = .next t ∧ t = { s with x := t.x, cy := t.cy, pc := s.pc + 1 } ∧
    16 * t.cy.toNat + (t.readReg r).toNat = (s.readReg r).toNat + 1 ∧ ∀ q, q ≠ r → t.readReg q = s.readReg q) ∧
  (∀ s : State, ∃ t, exec .iac s = .next t ∧ t = { s with acc := t.acc, cy := t.cy, pc := s.pc + 1 } ∧
    16 * t.cy.toNat + t.acc.toNat = s.acc.toNat + 1) ∧
  ∀ s : State, ∃ t, exec .dac s = .next t ∧ t = { s with acc := t.acc, cy := t.cy, pc := s.pc + 1 } ∧
    t.acc.toNat = (s.acc.toNat + 15) % 16 ∧ (t.cy = 0 ↔ s.acc = 0)

/-- DAA completes; when ACC > 9 or CY = 1 it adds 6 modulo 16 and sets CY if that carries or it was set; otherwise it
changes nothing; and it changes nothing else but pc. The algorithm is the spec's decision D15. -/
def Obligations.DaaAddsSixWhereNeeded : Prop :=
  ∀ s : State, ∃ t, exec .daa s = .next t ∧ t = { s with acc := t.acc, cy := t.cy, pc := s.pc + 1 } ∧
    (9 < s.acc.toNat ∨ s.cy = 1 →
      t.acc.toNat = (s.acc.toNat + 6) % 16 ∧ (t.cy = 1 ↔ s.cy = 1 ∨ 16 ≤ s.acc.toNat + 6)) ∧
    (¬ (9 < s.acc.toNat ∨ s.cy = 1) → t.acc = s.acc ∧ t.cy = s.cy)

/-- For two digits 0..9 and a carry in, ADD followed by DAA leaves the units digit in ACC and the decimal carry in CY
(rests on decisions D12, D15). -/
def Obligations.AddThenDaaAddsDecimalDigits : Prop :=
  ∀ (s : State) (r : Reg), s.acc.toNat ≤ 9 → (s.readReg r).toNat ≤ 9 →
    ∃ t, execSeq [.add r, .daa] s = .next t ∧ t.acc.toNat ≤ 9 ∧
      10 * t.cy.toNat + t.acc.toNat = s.acc.toNat + (s.readReg r).toNat + s.cy.toNat

/-- With no borrow in, subtracting the low digits, exchanging, complementing the carry and subtracting the high digits
leaves the eight-bit difference modulo 256 in a register and ACC, and CY = 1 exactly when the whole does not borrow
(rests on decision D13). -/
def Obligations.SubCmcSubSubtractsTwoDigits : Prop :=
  ∀ (s : State) (hi lo hi' lo' : Reg), s.cy = 0 → lo ≠ hi → lo ≠ hi' →
    ∃ t, execSeq [.ld lo, .sub lo', .xch lo, .cmc, .ld hi, .sub hi'] s = .next t ∧
      256 * t.cy.toNat + 16 * t.acc.toNat + (t.readReg lo).toNat +
        (16 * (s.readReg hi').toNat + (s.readReg lo').toNat) =
      256 + (16 * (s.readReg hi).toNat + (s.readReg lo).toNat)

/-- CMA is 1111 0100; it leaves in ACC the complement, 15 - ACC, and CY and all else unchanged but pc; applied twice it
restores ACC. -/
def Obligations.CmaComplementsAcc : Prop :=
  encode .cma = [0b11110100] ∧ (∀ s : State, exec .cma s = .next { s with acc := ~~~s.acc, pc := s.pc + 1 }) ∧
  (∀ s t : State, exec .cma s = .next t → t.acc.toNat = 15 - s.acc.toNat) ∧
  (∀ s : State, execSeq [.cma, .cma] s = .next { s with pc := s.pc + 2 })

/-- CMC (1111 0011) turns 0 into 1 and 1 into 0 in CY, STC (1111 1010) sets CY, CLC (1111 0001) clears CY, CLB (1111
0000) clears ACC and CY; nothing else changes but pc. -/
def Obligations.FlagInstructionsWriteCarry : Prop :=
  (encode .cmc = [0b11110011] ∧ ∀ s : State, ∃ t, exec .cmc s = .next t ∧ t = { s with cy := t.cy, pc := s.pc + 1 } ∧
    (s.cy = 0 → t.cy = 1) ∧ (s.cy = 1 → t.cy = 0)) ∧
  (encode .stc = [0b11111010] ∧ ∀ s : State, exec .stc s = .next { s with cy := 1, pc := s.pc + 1 }) ∧
  (encode .clc = [0b11110001] ∧ ∀ s : State, exec .clc s = .next { s with cy := 0, pc := s.pc + 1 }) ∧
  (encode .clb = [0b11110000] ∧ ∀ s : State, exec .clb s = .next { s with acc := 0, cy := 0, pc := s.pc + 1 })

/-- RAL completes with CY = ACC[3], ACC[i+1] = ACC[i] and ACC[0] = CY of before; RAR with CY = ACC[0], ACC[i] = ACC[i+1]
and ACC[3] = CY of before; nothing else changes but pc. The bit paths are derived in the spec from the words 'left',
'right' and 'through carry'. -/
def Obligations.RotatesMoveEachBitThroughCarry : Prop :=
  (∀ s : State, ∃ t, exec .ral s = .next t ∧ t = { s with acc := t.acc, cy := t.cy, pc := s.pc + 1 } ∧ t.cy.getLsbD 0 = s.acc.getLsbD 3 ∧
    t.acc.getLsbD 0 = s.cy.getLsbD 0 ∧ ∀ k, k < 3 → t.acc.getLsbD (k + 1) = s.acc.getLsbD k) ∧
  (∀ s : State, ∃ t, exec .rar s = .next t ∧ t = { s with acc := t.acc, cy := t.cy, pc := s.pc + 1 } ∧ t.cy.getLsbD 0 = s.acc.getLsbD 0 ∧
    t.acc.getLsbD 3 = s.cy.getLsbD 0 ∧ ∀ k, k < 3 → t.acc.getLsbD k = s.acc.getLsbD (k + 1))

/-- RAL then RAR, RAR then RAL, five RAL and five RAR each leave ACC and CY as they were, pc moved past the
instructions, and all else unchanged. -/
def Obligations.RotatesAreInverseWithPeriodFive : Prop :=
  ∀ s : State,
    execSeq [.ral, .rar] s = .next { s with pc := s.pc + 2 } ∧ execSeq [.rar, .ral] s = .next { s with pc := s.pc + 2 } ∧
    execSeq [.ral, .ral, .ral, .ral, .ral] s = .next { s with pc := s.pc + 5 } ∧
    execSeq [.rar, .rar, .rar, .rar, .rar] s = .next { s with pc := s.pc + 5 }

/-- LD r (1010 rrrr) leaves x[r] in ACC, LDM d (1101 dddd) leaves d, XCH r (1011 rrrr) leaves the old x[r] in ACC and
the old ACC in x[r]; every other register, CY and all else are unchanged but pc. -/
def Obligations.LoadsAndExchange : Prop :=
  ((∀ r : Reg, (encode (.ld r)).map BitVec.toNat = [0xA0 + r.val]) ∧
    ∀ (s : State) (r : Reg), exec (.ld r) s = .next { s with acc := s.readReg r, pc := s.pc + 1 }) ∧
  ((∀ r : Reg, (encode (.xch r)).map BitVec.toNat = [0xB0 + r.val]) ∧
    ∀ (s : State) (r : Reg), ∃ t, exec (.xch r) s = .next t ∧
      t = { s with acc := s.readReg r, x := t.x, pc := s.pc + 1 } ∧ t.readReg r = s.acc ∧
      ∀ q, q ≠ r → t.readReg q = s.readReg q) ∧
  (∀ d : Nibble, (encode (.ldm d)).map BitVec.toNat = [0xD0 + d.toNat]) ∧
    ∀ (s : State) (d : Nibble), exec (.ldm d) s = .next { s with acc := d, pc := s.pc + 1 }

/-- TCC is 1111 0111; it leaves 0 or 1, the old CY, in ACC and 0 in CY, and changes nothing else but pc. -/
def Obligations.TccMovesCarryIntoAcc : Prop :=
  encode .tcc = [0b11110111] ∧ ∀ s : State, ∃ t, exec .tcc s = .next t ∧
    t = { s with acc := t.acc, cy := 0, pc := s.pc + 1 } ∧ t.acc.toNat = s.cy.toNat

/-- TCS completes with ACC = 9 or 10 by the old CY; that it clears CY is the spec's decision D16; nothing else changes
but pc. -/
def Obligations.TcsGivesNinePlusCarry : Prop :=
  ∀ s : State, ∃ t, exec .tcs s = .next t ∧
    t = { s with acc := t.acc, cy := 0, pc := s.pc + 1 } ∧ t.acc.toNat = 9 + s.cy.toNat

/-- FIM rp,d completes with d[7:4] in register 2p and d[3:0] in register 2p+1 and changes nothing else but pc, which
moves by two. The order of the nibbles is the spec's decision D10. -/
def Obligations.FimWritesPairHighNibbleFirst : Prop :=
  ∀ (s : State) (p : RegPair) (d : Byte), ∃ t, exec (.fim p d) s = .next t ∧
    t = { s with x := t.x, pc := s.pc + 2 } ∧
    (∀ q : Reg, q.val = 2 * p.val → (t.readReg q).toNat = d.toNat / 16) ∧
    (∀ q : Reg, q.val = 2 * p.val + 1 → (t.readReg q).toNat = d.toNat % 16) ∧
    ∀ q : Reg, q.val ≠ 2 * p.val → q.val ≠ 2 * p.val + 1 → t.readReg q = s.readReg q

/-- SRC rp completes with SRCADDR the eight-bit number 16 x[2p] + x[2p+1], and changes nothing else but pc (the order of
the nibbles is D10). -/
def Obligations.SrcLatchesPairAsAddress : Prop :=
  ∀ (s : State) (p : RegPair) (h l : Reg), h.val = 2 * p.val → l.val = 2 * p.val + 1 →
    ∃ addr : Byte, addr.toNat = 16 * (s.readReg h).toNat + (s.readReg l).toNat ∧
      exec (.src p) s = .next { s with srcaddr := some addr, pc := s.pc + 1 }

/-- FIN rp completes with the byte of ROM at the page of pc + 1 and offset 16 x[0] + x[1] written to the pair, high
nibble first, and changes nothing else but pc. These are the spec's decisions D8, D9, D10. -/
def Obligations.FinReadsRomThroughPairZero : Prop :=
  ∀ (s : State) (p : RegPair), ∃ (t : State) (a : Addr), exec (.fin p) s = .next t ∧
    a.toNat = 256 * ((s.pc.toNat + 1) % 4096 / 256) + 16 * (s.readReg 0).toNat + (s.readReg 1).toNat ∧
    t = { s with x := t.x, pc := s.pc + 1 } ∧
    (∀ q : Reg, q.val = 2 * p.val → (t.readReg q).toNat = (s.readRom a).toNat / 16) ∧
    (∀ q : Reg, q.val = 2 * p.val + 1 → (t.readReg q).toNat = (s.readRom a).toNat % 16) ∧
    ∀ q : Reg, q.val ≠ 2 * p.val → q.val ≠ 2 * p.val + 1 → t.readReg q = s.readReg q

/-- JIN rp completes with pc at the page of pc + 1 and offset 16 x[2p] + x[2p+1], and changes nothing else (decisions
D8, D10). -/
def Obligations.JinJumpsWithinPageOfNext : Prop :=
  ∀ (s : State) (p : RegPair) (h l : Reg), h.val = 2 * p.val → l.val = 2 * p.val + 1 →
    ∃ a : Addr, a.toNat = 256 * ((s.pc.toNat + 1) % 4096 / 256) + 16 * (s.readReg h).toNat + (s.readReg l).toNat ∧
      exec (.jin p) s = .next { s with pc := a }

/-- JUN a is 0100 aaaa aaaaaaaa, a[11:8] in the first byte and a[7:0] in the second; any address is a legal target; it
sets pc and changes nothing else, so a JUN to its own address leaves the state as it is. -/
def Obligations.JunSetsPcOnly : Prop :=
  (∀ a : Addr, (encode (.jun a)).map BitVec.toNat = [0x40 + a.toNat / 256, a.toNat % 256]) ∧
  (∀ (s : State) (a : Addr), exec (.jun a) s = .next { s with pc := a }) ∧
  ∀ s : State, exec (.jun s.pc) s = .next s

/-- With fewer than three addresses stacked JMS a puts pc + 2 first on the stack, sets pc to a and changes nothing else,
and with three it raises StackOverflow; with an address stacked BBL d removes the first, sets pc to it and ACC to d
and changes nothing else, and with none it raises StackUnderflow (decision D21 for both faults). -/
def Obligations.JmsPushesAndBblPops : Prop :=
  (∀ (s : State) (a : Addr),
    (s.stk.length < 3 → exec (.jms a) s = .next { s with stk := (s.pc + 2) :: s.stk, pc := a }) ∧
    (s.stk.length = 3 → exec (.jms a) s = .fault (.stackOverflow s.pc))) ∧
  ∀ (s : State) (d : Nibble),
    (∀ (ret : Addr) (rest : List Addr), s.stk = ret :: rest →
      exec (.bbl d) s = .next { s with stk := rest, acc := d, pc := ret }) ∧
    (s.stk = [] → exec (.bbl d) s = .fault (.stackUnderflow s.pc))

/-- From an empty stack three JMS in a row complete and a fourth raises StackOverflow at its own address; after three
JMS, the first BBL continues after the third JMS with the other two return addresses still stacked, the second after
the second JMS with one, and the third after the first JMS with an empty stack; each BBL loads its datum into ACC,
and all else is unchanged (decision D21). -/
def Obligations.CallsNestThreeDeepAndReturnInOrder : Prop :=
  ∀ (s : State) (a b c d : Addr) (u v w : Nibble), s.stk = [] →
    execSeq [.jms a, .jms b, .jms c, .jms d] s = .fault (.stackOverflow c) ∧
    execSeq [.jms a, .jms b, .jms c] s = .next { s with stk := [b + 2, a + 2, s.pc + 2], pc := c } ∧
    execSeq [.jms a, .jms b, .jms c, .bbl u] s =
      .next { s with acc := u, stk := [a + 2, s.pc + 2], pc := b + 2 } ∧
    execSeq [.jms a, .jms b, .jms c, .bbl u, .bbl v] s = .next { s with acc := v, stk := [s.pc + 2], pc := a + 2 } ∧
    execSeq [.jms a, .jms b, .jms c, .bbl u, .bbl v, .bbl w] s = .next { s with acc := w, pc := s.pc + 2 }

/-- For every condition field: the selected tests (bit 1: ACC = 0, bit 2: CY = 1, bit 3: the test pin is 0) are combined
by OR, bit 0 inverts; if taken pc is the offset a in the page of pc + 2, else pc + 2; the pin is drawn only with bit
3 set, and nothing but pc and the draw changes. The level drawn is the one lined up, or a free value (log 4); the
page is the spec's decision D7. -/
def Obligations.JcnTakesConditionOfItsFieldBits : Prop :=
  ∀ (s : State) (f : Nibble) (a : Byte), (∀ b bs, s.testInputs = b :: bs → s.testLevel = b) ∧
    ∃ t, exec (.jcn (condOfField f) a) s = .next t ∧
      t = { (if f.getLsbD 3 then
          { s with testInputs := s.testInputs.tail, testDraws := s.testDraws + 1 } else s) with pc := t.pc } ∧
      (¬ (((f.getLsbD 1 = true ∧ s.acc = 0) ∨ (f.getLsbD 2 = true ∧ s.cy = 1) ∨
          (f.getLsbD 3 = true ∧ s.testLevel = 0)) ↔ f.getLsbD 0 = true) →
        t.pc.toNat = 256 * ((s.pc.toNat + 2) % 4096 / 256) + a.toNat) ∧
      ((((f.getLsbD 1 = true ∧ s.acc = 0) ∨ (f.getLsbD 2 = true ∧ s.cy = 1) ∨
          (f.getLsbD 3 = true ∧ s.testLevel = 0)) ↔ f.getLsbD 0 = true) →
        t.pc = s.pc + 2)

/-- ISZ r,a completes with x[r] + 1 modulo 16 in x[r]; if that is not 0, pc is the offset a in the page of pc + 2, else
pc + 2; CY and all else are unchanged. The page is the spec's decision D7. -/
def Obligations.IszIncrementsAndJumpsUnlessZero : Prop :=
  ∀ (s : State) (r : Reg) (a : Byte), ∃ t, exec (.isz r a) s = .next t ∧ t = { s with x := t.x, pc := t.pc } ∧
    (t.readReg r).toNat = ((s.readReg r).toNat + 1) % 16 ∧ (∀ q, q ≠ r → t.readReg q = s.readReg q) ∧
    (t.readReg r ≠ 0 → t.pc.toNat = 256 * ((s.pc.toNat + 2) % 4096 / 256) + a.toNat) ∧
    (t.readReg r = 0 → t.pc = s.pc + 2)

/-- When the ISZ r at pc has its own address as target in the page of pc + 2, then from x[r] = k the machine, after 16 -
k steps, is past it with x[r] = 0 and all else unchanged (rests on decision D7). -/
def Obligations.IszLoopOnItselfCountsToZero : Prop :=
  ∀ (s : State) (r : Reg) (b1 b2 : Byte), s.readRom s.pc = b1 → s.readRom (s.pc + 1) = b2 →
    decode [b1, b2] = .ok (.isz r b2, []) →
    s.pc.toNat = 256 * ((s.pc.toNat + 2) % 4096 / 256) + b2.toNat →
    ∃ t, Sys2Proof.core.run (16 - (s.readReg r).toNat) s = .next t ∧ t = { s with x := t.x, pc := s.pc + 2 } ∧
      t.readReg r = 0 ∧ ∀ q, q ≠ r → t.readReg q = s.readReg q

/-- With an SRC address and a bank selected, WRM completes; the main character at that bank and address holds ACC, every
other location of RAM reads as before, and nothing else changes but pc (organisation of RAM: decision D20). -/
def Obligations.WrmStoresAtMainLocation : Prop :=
  ∀ (s : State) (addr : Byte) (b : Fin 4), s.Inv → s.srcaddr = some addr → s.selectedBank = some b →
    ∃ t, exec .wrm s = .next t ∧ t = { s with ram := t.ram, pc := s.pc + 1 } ∧ t.readMain b addr = s.acc ∧
      ∀ loc, loc ≠ mainLoc b addr → t.ram.read loc = s.ram.read loc

/-- With an SRC address and a bank selected, WRn completes; status character n of the RAM register addressed by
SRCADDR[7:4] holds ACC, every other location of RAM, all main characters among them, reads as before, and nothing
else changes but pc (decision D20). -/
def Obligations.StatusWritesStoreAtStatusLocation : Prop :=
  ∀ (s : State) (addr : Byte) (b : Fin 4), s.Inv → s.srcaddr = some addr → s.selectedBank = some b →
    ∀ e ∈ [(Instr.wr0, (0 : Fin 4)), (.wr1, 1), (.wr2, 2), (.wr3, 3)], ∀ g : Nibble, g.toNat = addr.toNat / 16 →
      ∃ t, exec e.1 s = .next t ∧ t = { s with ram := t.ram, pc := s.pc + 1 } ∧ t.readStatus b g e.2 = s.acc ∧
        ∀ loc, loc ≠ statusLoc b g e.2 → t.ram.read loc = s.ram.read loc

/-- With an SRC address and a bank selected, RDM loads the main character at that address and RDn status character n of
the RAM register SRCADDR[7:4] into ACC; nothing else changes but pc (decision D20). -/
def Obligations.RamReadsLoadAcc : Prop :=
  ∀ (s : State) (addr : Byte) (b : Fin 4), s.srcaddr = some addr → s.selectedBank = some b →
    exec .rdm s = .next { s with acc := s.readMain b addr, pc := s.pc + 1 } ∧
    ∀ e ∈ [(Instr.rd0, (0 : Fin 4)), (.rd1, 1), (.rd2, 2), (.rd3, 3)], ∀ g : Nibble, g.toNat = addr.toNat / 16 →
      exec e.1 s = .next { s with acc := s.readStatus b g e.2, pc := s.pc + 1 }

/-- With an SRC address and a bank selected, writing ACC by WRM or WRn, loading ACC with anything else and reading by
RDM or the RDn of the same number brings the value back into ACC, RAM as the write left it. -/
def Obligations.WhatIsWrittenIsReadBack : Prop :=
  ∀ (s : State) (addr : Byte) (b : Fin 4), s.Inv → s.srcaddr = some addr → s.selectedBank = some b →
    ∀ e ∈ [(Instr.wrm, Instr.rdm), (.wr0, .rd0), (.wr1, .rd1), (.wr2, .rd2), (.wr3, .rd3)], ∀ d : Nibble,
      ∃ t u, exec e.1 s = .next u ∧ execSeq [e.1, .ldm d, e.2] s = .next t ∧
        t = { s with ram := u.ram, pc := s.pc + 3 }

/-- Main characters (bank, address) and status characters (bank, register, digit) have distinct locations, all below
1280, and every location below 1280 belongs to one of them (decision D20). -/
def Obligations.RamLocationsNumberEveryCharacterOnce : Prop :=
  (∀ (b b' : Fin 4) (a a' : Byte), mainLoc b a = mainLoc b' a' → b = b' ∧ a = a') ∧
  (∀ (b b' : Fin 4) (g g' : Nibble) (n n' : Fin 4), statusLoc b g n = statusLoc b' g' n' → b = b' ∧ g = g' ∧ n = n') ∧
  (∀ (b b' : Fin 4) (a : Byte) (g : Nibble) (n : Fin 4), mainLoc b a ≠ statusLoc b' g n) ∧
  ∀ loc : Nat, loc < 1280 ↔ (∃ b a, loc = mainLoc b a) ∨ ∃ b g n, loc = statusLoc b g n

/-- With an SRC address and a bank selected, WMP completes with ACC in the RAM-port latch of that bank and chip
SRCADDR[7:6]; with an SRC address alone, WRR completes with ACC in the latch of ROM port SRCADDR[7:4]. Every other
latch keeps its value, one output event is recorded, and nothing else changes but pc (decisions D20, D26). -/
def Obligations.PortWritesSetLatchAndEmitEvent : Prop :=
  (∀ (s : State) (addr : Byte) (b : Fin 4), s.srcaddr = some addr → s.selectedBank = some b →
    ∀ c : BitVec 2, c.toNat = addr.toNat / 64 →
      ∃ t, exec .wmp s = .next t ∧
        t = { s with ramPort := t.ramPort, events := s.events ++ [.ramPort b c s.acc], pc := s.pc + 1 } ∧
        t.readRamPort b c = s.acc ∧
        ∀ (b' : Fin 4) (c' : BitVec 2), (b', c') ≠ (b, c) → t.readRamPort b' c' = s.readRamPort b' c') ∧
  ∀ (s : State) (addr : Byte) (k : Nibble), s.srcaddr = some addr → k.toNat = addr.toNat / 16 →
    ∃ t, exec .wrr s = .next t ∧
      t = { s with romPort := t.romPort, events := s.events ++ [.romPort k s.acc], pc := s.pc + 1 } ∧
      t.readRomPort k = s.acc ∧ ∀ k', k' ≠ k → t.readRomPort k' = s.readRomPort k'

/-- With an SRC address, and no condition on BANK, RDR completes with ACC the input drawn for port SRCADDR[7:4] (the one
lined up, or a free value, log 4), one draw used up, the latches and all else unchanged but pc (decision D26). -/
def Obligations.RdrLoadsThePlatformsInput : Prop :=
  ∀ (s : State) (addr : Byte) (k : Nibble), s.srcaddr = some addr → k.toNat = addr.toNat / 16 →
    (∀ v vs, s.portInputs = v :: vs → s.portLevel k = v) ∧
    exec .rdr s = .next { s with acc := s.portLevel k, portInputs := s.portInputs.tail,
                                 portDraws := s.portDraws + 1, pc := s.pc + 1 }

/-- Whatever was selected before, after a DCL and any instructions that are no SRC and complete, a RAM or port
instruction raises RamAddressUnset at its own address; after DCL and a new SRC, WRR and RDR complete, and so does
every other RAM and port instruction if the new BANK selects a bank (decisions D18, D19). -/
def Obligations.BankSwitchUnsetsTheAddress : Prop :=
  (∀ (s t : State) (between : List Instr) (i : Instr), (∀ p, .src p ∉ between) → i.usesSrcaddr = true →
    execSeq (.dcl :: between) s = .next t → execSeq (.dcl :: between ++ [i]) s = .fault (.ramAddressUnset t.pc)) ∧
  (∀ (s : State) (p : RegPair) (i : Instr), i.usesSrcaddr = true → i.usesBank = false →
    ∃ t, execSeq [.dcl, .src p, i] s = .next t) ∧
  ∀ (s : State) (p : RegPair) (i : Instr) (k : Fin 8) (b : Fin 4), i.usesSrcaddr = true → k.val = s.acc.toNat % 8 →
    s.bankMap[k] = some b → ∃ t, execSeq [.dcl, .src p, i] s = .next t

/-- KBP completes: 0 gives 0, the single bit k gives k + 1, and several bits give 15; nothing else changes but pc. The
count from 1 and the 15 are the spec's decision D17. -/
def Obligations.KbpGivesBitPosition : Prop :=
  ∀ s : State, ∃ t, exec .kbp s = .next t ∧ t = { s with acc := t.acc, pc := s.pc + 1 } ∧
    (s.acc = 0 → t.acc = 0) ∧ (∀ k, k < 4 → s.acc.toNat = 2 ^ k → t.acc.toNat = k + 1) ∧
    (s.acc ≠ 0 → (∀ k, k < 4 → s.acc.toNat ≠ 2 ^ k) → t.acc = 15)

/-- DCL completes with BANK the low three bits of ACC and SRCADDR none, and changes nothing else but pc (decisions D18,
D19). -/
def Obligations.DclSelectsBankFromAcc : Prop :=
  ∀ s : State, ∃ b : BitVec 3, b.toNat = s.acc.toNat % 8 ∧
    exec .dcl s = .next { s with bank := b, srcaddr := none, pc := s.pc + 1 }

/-- For any instructions whose bytes fit in ROM, with their bytes placed from address 0x000, a step at the address of
one of them runs it: placing, fetching and decoding agree. -/
def Obligations.ProgramImageRunsItsInstructions : Prop :=
  ∀ (before after : List Instr) (i : Instr) (s : State),
    ((before ++ i :: after).flatMap encode).length ≤ 4096 →
    s.rom = romImage ((before ++ i :: after).flatMap encode) →
    s.pc.toNat = (before.flatMap encode).length → step s = exec i s

/-- A run of at most k instructions is over after n instructions exactly when n is at most k, n steps lead to a state
with pc = END, and no fewer steps do; and a faulted run stands in the state before the faulting step, with pc not at
END (decisions D24, D28). -/
def Obligations.RunEndsFirstTimeAtEnd : Prop :=
  (∀ (e : Addr) (k n : Nat) (s t : State), runUntil e k s = .ended n t ↔
    n ≤ k ∧ Sys2Proof.core.run n s = .next t ∧ t.pc = e ∧
      ∀ m u, m < n → Sys2Proof.core.run m s = .next u → u.pc ≠ e) ∧
  ∀ (e : Addr) (k n : Nat) (f : Fault) (s t : State), runUntil e k s = .faulted n f t →
    n < k ∧ Sys2Proof.core.run n s = .next t ∧ t.pc ≠ e ∧ step t = .fault f

/-- For JCN and ISZ at address a with a label at address n, the assembler gives the low 8 bits of n when n lies in the
page of a + 2 (modulo 4096) and rejects the line otherwise (decision D29). -/
def Obligations.AssemblerKeepsJumpsInPage : Prop :=
  ∀ (ls : Labels) (l : String) (a n k : Nat), ls.find l = some n → k < 16 →
    assembleOperation ls a "JCN" [.num k, .sym l] =
      (if n / 256 = (a + 2) % 4096 / 256 then
        .ok (.jcn (condOfField (BitVec.ofNat 4 k)) (BitVec.ofNat 8 (n % 256))) else .error (.otherPage l)) ∧
    assembleOperation ls a "ISZ" [.num k, .sym l] =
      (if n / 256 = (a + 2) % 4096 / 256 then
        .ok (.isz (regOfField (BitVec.ofNat 4 k)) (BitVec.ofNat 8 (n % 256))) else .error (.otherPage l))
end

