-- ==== Sys2Proof/Laws/Encoding.lean ====
section
/-! SUPPORT. Laws of the bit-field helpers and of well-formedness. -/

namespace Sys2Proof

/-- A concatenation as a number: the high-order part counts in units of the low-order part's range. -/
theorem toNat_append_eq {n m : Nat} (x : BitVec n) (y : BitVec m) : (x ++ y).toNat = x.toNat * 2 ^ m + y.toNat := by
  rw [BitVec.toNat_append, ← Nat.shiftLeft_add_eq_or_of_lt y.isLt, Nat.shiftLeft_eq]

theorem joinNibbles_toNat (h l : Nibble) : (joinNibbles h l).toNat = 16 * h.toNat + l.toNat := by
  unfold joinNibbles
  rw [toNat_append_eq]
  omega

theorem joinAddr_toNat (h : Nibble) (l : Byte) : (joinAddr h l).toNat = 256 * h.toNat + l.toNat := by
  unfold joinAddr
  rw [toNat_append_eq]
  omega

theorem highNibble_toNat (b : Byte) : (highNibble b).toNat = b.toNat / 16 := by
  have := b.isLt
  simp only [highNibble, BitVec.extractLsb'_toNat, Nat.shiftRight_eq_div_pow]
  omega

theorem lowNibble_toNat (b : Byte) : (lowNibble b).toNat = b.toNat % 16 := by
  simp only [lowNibble, BitVec.extractLsb'_toNat, Nat.shiftRight_eq_div_pow]
  omega

theorem pageOf_toNat (a : Addr) : (pageOf a).toNat = a.toNat / 256 := by
  have := a.isLt
  simp only [pageOf, BitVec.extractLsb'_toNat, Nat.shiftRight_eq_div_pow]
  omega

theorem offsetOf_toNat (a : Addr) : (offsetOf a).toNat = a.toNat % 256 := by
  simp only [offsetOf, BitVec.extractLsb'_toNat, Nat.shiftRight_eq_div_pow]
  omega

/-- A byte is its two nibbles. -/
theorem joinNibbles_split (b : Byte) : joinNibbles (highNibble b) (lowNibble b) = b := by
  apply BitVec.eq_of_toNat_eq
  rw [joinNibbles_toNat, highNibble_toNat, lowNibble_toNat]
  omega

@[simp] theorem highNibble_joinNibbles (h l : Nibble) : highNibble (joinNibbles h l) = h := by
  apply BitVec.eq_of_toNat_eq
  have := l.isLt
  rw [highNibble_toNat, joinNibbles_toNat]
  omega

@[simp] theorem lowNibble_joinNibbles (h l : Nibble) : lowNibble (joinNibbles h l) = l := by
  apply BitVec.eq_of_toNat_eq
  have := l.isLt
  rw [lowNibble_toNat, joinNibbles_toNat]
  omega

/-- An address is its page and its offset. -/
theorem joinAddr_split (a : Addr) : joinAddr (pageOf a) (offsetOf a) = a := by
  apply BitVec.eq_of_toNat_eq
  rw [joinAddr_toNat, pageOf_toNat, offsetOf_toNat]
  omega

@[simp] theorem pageOf_joinAddr (h : Nibble) (l : Byte) : pageOf (joinAddr h l) = h := by
  apply BitVec.eq_of_toNat_eq
  have := l.isLt
  rw [pageOf_toNat, joinAddr_toNat]
  omega

@[simp] theorem offsetOf_joinAddr (h : Nibble) (l : Byte) : offsetOf (joinAddr h l) = l := by
  apply BitVec.eq_of_toNat_eq
  have := l.isLt
  rw [offsetOf_toNat, joinAddr_toNat]
  omega

/-- What holds of the sixteen numbers of four bits holds of every nibble. -/
theorem forall_nibble {P : Nibble → Prop} (h : ∀ k, k < 16 → P (BitVec.ofNat 4 k)) (n : Nibble) : P n := by
  have := h n.toNat n.isLt
  rwa [BitVec.ofNat_toNat, BitVec.setWidth_eq] at this

theorem condOfField_field (c : Cond) : condOfField c.field = c := by
  obtain ⟨t, k, a, i⟩ := c
  cases t <;> cases k <;> cases a <;> cases i <;> rfl

theorem field_condOfField (n : Nibble) : (condOfField n).field = n := by
  refine forall_nibble (P := fun n => (condOfField n).field = n) (fun k hk => ?_) n
  interval_cases k <;> rfl

theorem pairOfField_pairField (p : RegPair) (b : Bit) : pairOfField (pairField p b) = p := by
  revert p b
  decide

theorem regOfField_regField (r : Reg) : regOfField (regField r) = r := by
  revert r
  decide

theorem regField_regOfField (n : Nibble) : regField (regOfField n) = n := by
  revert n
  decide

theorem admits_iff (k : OperandKind) (n : Nat) : k.admits n = true ↔ n < k.bound := decide_eq_true_iff

theorem decode_cons (b : Byte) (rest : List Byte) : decode (b :: rest) =
    if instrLength b = 1 then
      match decodeBytes b 0 with
      | some i => .ok (i, rest)
      | none => .error (.unassigned b)
    else
      match rest with
      | [] => .error (.noSecondByte b)
      | b2 :: rest' =>
        match decodeBytes b b2 with
        | some i => .ok (i, rest')
        | none => .error (.unassigned b) := rfl

/-- What the decoder answers at the head of a list: one byte, or two. -/
theorem decode_ok_iff {b : Byte} {rest rest' : List Byte} {i : Instr} :
    decode (b :: rest) = .ok (i, rest') ↔
      (instrLength b = 1 ∧ decodeBytes b 0 = some i ∧ rest = rest') ∨
      (instrLength b ≠ 1 ∧ ∃ b2, rest = b2 :: rest' ∧ decodeBytes b b2 = some i) := by
  rw [decode_cons]
  by_cases h : instrLength b = 1
  · simp only [h, if_true]
    cases decodeBytes b 0 <;> simp
  · simp only [h, if_false]
    rcases rest with _ | ⟨c, cs⟩
    · simp
    · dsimp only
      cases hd : decodeBytes b c <;> simp [hd, h, and_comm]

/-- Whether two bytes decode does not depend on the second. -/
theorem decodeBytes_isSome_eq (b b2 : Byte) : (decodeBytes b b2).isSome = (decodeBytes b 0).isSome := by
  unfold decodeBytes
  dsimp only
  split <;> first | rfl | (split <;> rfl)

/-- Every instruction is well-formed: its types admit no operand outside the range of its field. -/
theorem wellFormed_all (i : Instr) : i.wellFormed = true := by
  cases i <;> simp only [Instr.wellFormed, Instr.operandNumbers, List.all_cons, List.all_nil, Bool.and_true,
    Bool.and_eq_true, admits_iff]
  case fim p d => exact ⟨p.isLt, d.isLt⟩
  case isz r a => exact ⟨r.isLt, a.isLt⟩
  all_goals exact Fin.isLt _

end Sys2Proof
end

