-- ==== Sys2Proof/Laws/Memory.lean ====
section
/-! SUPPORT. The laws of memories: a read after a write, and that every write keeps the canonical form. -/

namespace Sys2Proof.Machine

variable {w : Nat}

@[simp] theorem Memory.read_nil (a : Nat) : Memory.read ([] : Memory w) a = Memory.unlisted w := rfl

theorem Memory.wfFrom_cons {size lo k : Nat} {v : BitVec w} {m : Memory w} :
    Memory.wfFrom size lo ((k, v) :: m) = true ↔
      lo ≤ k ∧ k < size ∧ v ≠ Memory.unlisted w ∧ Memory.wfFrom size (k + 1) m = true := by
  simp [Memory.wfFrom, and_assoc]

/-- The canonical form from `lo` on is one from any lower location on. -/
theorem Memory.wfFrom_mono {size lo lo' : Nat} {m : Memory w} (h : lo' ≤ lo) (hm : m.wfFrom size lo = true) :
    m.wfFrom size lo' = true := by
  cases m with
  | nil => rfl
  | cons e m =>
    obtain ⟨k, v⟩ := e
    rw [Memory.wfFrom_cons] at hm ⊢
    exact ⟨by omega, hm.2⟩

/-- Below where a canonical memory begins nothing is listed. -/
theorem Memory.read_below {size lo a : Nat} {m : Memory w} (hm : m.wfFrom size lo = true) (h : a < lo) :
    m.read a = Memory.unlisted w := by
  cases m with
  | nil => rfl
  | cons e m =>
    obtain ⟨k, v⟩ := e
    rw [Memory.wfFrom_cons] at hm
    have : a ≠ k := by omega
    have : a < k := by omega
    simp [Memory.read, *]

theorem Memory.write_wfFrom {size lo a : Nat} {v : BitVec w} {m : Memory w} (hm : m.wfFrom size lo = true)
    (hlo : lo ≤ a) (ha : a < size) : (m.write a v).wfFrom size lo = true := by
  induction m generalizing lo with
  | nil =>
    unfold Memory.write
    split
    · rfl
    · rw [Memory.wfFrom_cons]; exact ⟨hlo, ha, ‹_›, rfl⟩
  | cons e m ih =>
    obtain ⟨k, u⟩ := e
    have h := hm
    rw [Memory.wfFrom_cons] at h
    obtain ⟨h1, h2, h3, h4⟩ := h
    unfold Memory.write
    split
    · split
      · exact hm
      · rw [Memory.wfFrom_cons, Memory.wfFrom_cons]; exact ⟨hlo, ha, ‹_›, by omega, h2, h3, h4⟩
    · split
      · subst a
        split
        · exact Memory.wfFrom_mono (by omega) h4
        · rw [Memory.wfFrom_cons]; exact ⟨h1, h2, ‹_›, h4⟩
      · rw [Memory.wfFrom_cons]; exact ⟨h1, h2, h3, ih h4 (by omega)⟩

/-- Every write within the size keeps the canonical form. -/
theorem Memory.write_wf {size a : Nat} {v : BitVec w} {m : Memory w} (hm : m.wf size = true) (ha : a < size) :
    (m.write a v).wf size = true := Memory.write_wfFrom hm (Nat.zero_le a) ha

theorem Memory.read_write_same_from {size lo a : Nat} {v : BitVec w} {m : Memory w} (hm : m.wfFrom size lo = true) :
    (m.write a v).read a = v := by
  induction m generalizing lo with
  | nil => unfold Memory.write; split <;> simp [Memory.read, *]
  | cons e m ih =>
    obtain ⟨k, u⟩ := e
    obtain ⟨h1, h2, h3, h4⟩ := Memory.wfFrom_cons.mp hm
    unfold Memory.write
    split
    · split
      · rw [Memory.read_below (lo := k) (Memory.wfFrom_cons.mpr ⟨le_refl k, h2, h3, h4⟩) ‹_›]; exact Eq.symm ‹_›
      · simp [Memory.read]
    · split
      · subst a
        split
        · rw [Memory.read_below h4 (by omega)]; exact Eq.symm ‹_›
        · simp [Memory.read]
      · have : ¬ a < k := ‹_›
        simp only [Memory.read, *, if_false]
        exact ih h4

/-- A read after a write to the same location gives the value written. -/
theorem Memory.read_write_same {size a : Nat} {v : BitVec w} {m : Memory w} (hm : m.wf size = true) :
    (m.write a v).read a = v := Memory.read_write_same_from hm

theorem Memory.read_write_other_from {size lo a b : Nat} {v : BitVec w} {m : Memory w} (hm : m.wfFrom size lo = true)
    (hab : b ≠ a) : (m.write a v).read b = m.read b := by
  induction m generalizing lo with
  | nil => unfold Memory.write; split <;> simp [Memory.read, hab]
  | cons e m ih =>
    obtain ⟨k, u⟩ := e
    obtain ⟨h1, h2, h3, h4⟩ := Memory.wfFrom_cons.mp hm
    unfold Memory.write
    split
    · split
      · rfl
      · rw [show Memory.read ((a, v) :: (k, u) :: m) b =
          if b = a then v else if b < a then Memory.unlisted w else Memory.read ((k, u) :: m) b from rfl, if_neg hab]
        split
        · rw [Memory.read_below (lo := k) (Memory.wfFrom_cons.mpr ⟨le_refl k, h2, h3, h4⟩) (by omega)]
        · rfl
    · split
      · subst a
        split
        · by_cases hb : b < k
          · rw [Memory.read_below h4 (by omega)]; simp [Memory.read, hab, hb]
          · simp [Memory.read, hab, hb]
        · simp [Memory.read, hab]
      · simp only [Memory.read, ih h4]

/-- A write leaves every other location alone. -/
theorem Memory.read_write_other {size a b : Nat} {v : BitVec w} {m : Memory w} (hm : m.wf size = true)
    (hab : b ≠ a) : (m.write a v).read b = m.read b := Memory.read_write_other_from hm hab

/-- A list of bytes written within the size keeps the canonical form. -/
theorem Memory.writeList_wf {size a : Nat} {vs : List (BitVec w)} {m : Memory w} (hm : m.wf size = true)
    (ha : a + vs.length ≤ size) : (m.writeList a vs).wf size = true := by
  induction vs generalizing m a with
  | nil => exact hm
  | cons v vs ih =>
    simp only [List.length_cons] at ha
    exact ih (Memory.write_wf hm (by omega)) (by omega)

theorem mainLoc_lt (b : Fin 4) (a : Byte) : mainLoc b a < 1024 := by
  have := b.isLt; have := a.isLt; unfold mainLoc; omega

theorem statusLoc_range (b : Fin 4) (g : Nibble) (n : Fin 4) : 1024 ≤ statusLoc b g n ∧ statusLoc b g n < 1280 := by
  have := b.isLt; have := g.isLt; have := n.isLt; unfold statusLoc; omega

theorem State.writeMain_ram_wf {s : State} {b : Fin 4} {a : Byte} {v : Nibble} (h : s.ram.wf Config.ramSize = true) :
    (s.writeMain b a v).ram.wf Config.ramSize = true :=
  Memory.write_wf h (by have := mainLoc_lt b a; unfold Config.ramSize; omega)

theorem State.writeStatus_ram_wf {s : State} {b : Fin 4} {g : Nibble} {n : Fin 4} {v : Nibble}
    (h : s.ram.wf Config.ramSize = true) : (s.writeStatus b g n v).ram.wf Config.ramSize = true :=
  Memory.write_wf h (by have := statusLoc_range b g n; unfold Config.ramSize; omega)

theorem State.placeRom_rom_wf {s : State} {a : Addr} {b : Byte} (h : s.rom.wf Config.romSize = true) :
    (s.placeRom a b).rom.wf Config.romSize = true :=
  Memory.write_wf h a.isLt

end Sys2Proof.Machine
end

