-- ==== Sys2Proof/Laws/State.lean ====
section
/-! SUPPORT. What each update of `State` gives and leaves alone: one lemma per field per update. -/

namespace Sys2Proof.Machine

variable (s : State)

@[simp] theorem State.setAcc_acc (v : Nibble) : (s.setAcc v).acc = v := rfl
@[simp] theorem State.setAcc_cy (v : Nibble) : (s.setAcc v).cy = s.cy := rfl
@[simp] theorem State.setAcc_x (v : Nibble) : (s.setAcc v).x = s.x := rfl
@[simp] theorem State.setAcc_pc (v : Nibble) : (s.setAcc v).pc = s.pc := rfl
@[simp] theorem State.setAcc_stk (v : Nibble) : (s.setAcc v).stk = s.stk := rfl
@[simp] theorem State.setAcc_bank (v : Nibble) : (s.setAcc v).bank = s.bank := rfl
@[simp] theorem State.setAcc_srcaddr (v : Nibble) : (s.setAcc v).srcaddr = s.srcaddr := rfl
@[simp] theorem State.setAcc_bankMap (v : Nibble) : (s.setAcc v).bankMap = s.bankMap := rfl
@[simp] theorem State.setAcc_rom (v : Nibble) : (s.setAcc v).rom = s.rom := rfl
@[simp] theorem State.setAcc_ram (v : Nibble) : (s.setAcc v).ram = s.ram := rfl
@[simp] theorem State.setAcc_ramPort (v : Nibble) : (s.setAcc v).ramPort = s.ramPort := rfl
@[simp] theorem State.setAcc_romPort (v : Nibble) : (s.setAcc v).romPort = s.romPort := rfl
@[simp] theorem State.setAcc_events (v : Nibble) : (s.setAcc v).events = s.events := rfl
@[simp] theorem State.setAcc_testInputs (v : Nibble) : (s.setAcc v).testInputs = s.testInputs := rfl
@[simp] theorem State.setAcc_testDraws (v : Nibble) : (s.setAcc v).testDraws = s.testDraws := rfl
@[simp] theorem State.setAcc_portInputs (v : Nibble) : (s.setAcc v).portInputs = s.portInputs := rfl
@[simp] theorem State.setAcc_portDraws (v : Nibble) : (s.setAcc v).portDraws = s.portDraws := rfl

@[simp] theorem State.setCy_acc (v : Bit) : (s.setCy v).acc = s.acc := rfl
@[simp] theorem State.setCy_cy (v : Bit) : (s.setCy v).cy = v := rfl
@[simp] theorem State.setCy_x (v : Bit) : (s.setCy v).x = s.x := rfl
@[simp] theorem State.setCy_pc (v : Bit) : (s.setCy v).pc = s.pc := rfl
@[simp] theorem State.setCy_stk (v : Bit) : (s.setCy v).stk = s.stk := rfl
@[simp] theorem State.setCy_bank (v : Bit) : (s.setCy v).bank = s.bank := rfl
@[simp] theorem State.setCy_srcaddr (v : Bit) : (s.setCy v).srcaddr = s.srcaddr := rfl
@[simp] theorem State.setCy_bankMap (v : Bit) : (s.setCy v).bankMap = s.bankMap := rfl
@[simp] theorem State.setCy_rom (v : Bit) : (s.setCy v).rom = s.rom := rfl
@[simp] theorem State.setCy_ram (v : Bit) : (s.setCy v).ram = s.ram := rfl
@[simp] theorem State.setCy_ramPort (v : Bit) : (s.setCy v).ramPort = s.ramPort := rfl
@[simp] theorem State.setCy_romPort (v : Bit) : (s.setCy v).romPort = s.romPort := rfl
@[simp] theorem State.setCy_events (v : Bit) : (s.setCy v).events = s.events := rfl
@[simp] theorem State.setCy_testInputs (v : Bit) : (s.setCy v).testInputs = s.testInputs := rfl
@[simp] theorem State.setCy_testDraws (v : Bit) : (s.setCy v).testDraws = s.testDraws := rfl
@[simp] theorem State.setCy_portInputs (v : Bit) : (s.setCy v).portInputs = s.portInputs := rfl
@[simp] theorem State.setCy_portDraws (v : Bit) : (s.setCy v).portDraws = s.portDraws := rfl

@[simp] theorem State.setX_acc (v : Vector Nibble 16) : (s.setX v).acc = s.acc := rfl
@[simp] theorem State.setX_cy (v : Vector Nibble 16) : (s.setX v).cy = s.cy := rfl
@[simp] theorem State.setX_x (v : Vector Nibble 16) : (s.setX v).x = v := rfl
@[simp] theorem State.setX_pc (v : Vector Nibble 16) : (s.setX v).pc = s.pc := rfl
@[simp] theorem State.setX_stk (v : Vector Nibble 16) : (s.setX v).stk = s.stk := rfl
@[simp] theorem State.setX_bank (v : Vector Nibble 16) : (s.setX v).bank = s.bank := rfl
@[simp] theorem State.setX_srcaddr (v : Vector Nibble 16) : (s.setX v).srcaddr = s.srcaddr := rfl
@[simp] theorem State.setX_bankMap (v : Vector Nibble 16) : (s.setX v).bankMap = s.bankMap := rfl
@[simp] theorem State.setX_rom (v : Vector Nibble 16) : (s.setX v).rom = s.rom := rfl
@[simp] theorem State.setX_ram (v : Vector Nibble 16) : (s.setX v).ram = s.ram := rfl
@[simp] theorem State.setX_ramPort (v : Vector Nibble 16) : (s.setX v).ramPort = s.ramPort := rfl
@[simp] theorem State.setX_romPort (v : Vector Nibble 16) : (s.setX v).romPort = s.romPort := rfl
@[simp] theorem State.setX_events (v : Vector Nibble 16) : (s.setX v).events = s.events := rfl
@[simp] theorem State.setX_testInputs (v : Vector Nibble 16) : (s.setX v).testInputs = s.testInputs := rfl
@[simp] theorem State.setX_testDraws (v : Vector Nibble 16) : (s.setX v).testDraws = s.testDraws := rfl
@[simp] theorem State.setX_portInputs (v : Vector Nibble 16) : (s.setX v).portInputs = s.portInputs := rfl
@[simp] theorem State.setX_portDraws (v : Vector Nibble 16) : (s.setX v).portDraws = s.portDraws := rfl

@[simp] theorem State.setPc_acc (v : Addr) : (s.setPc v).acc = s.acc := rfl
@[simp] theorem State.setPc_cy (v : Addr) : (s.setPc v).cy = s.cy := rfl
@[simp] theorem State.setPc_x (v : Addr) : (s.setPc v).x = s.x := rfl
@[simp] theorem State.setPc_pc (v : Addr) : (s.setPc v).pc = v := rfl
@[simp] theorem State.setPc_stk (v : Addr) : (s.setPc v).stk = s.stk := rfl
@[simp] theorem State.setPc_bank (v : Addr) : (s.setPc v).bank = s.bank := rfl
@[simp] theorem State.setPc_srcaddr (v : Addr) : (s.setPc v).srcaddr = s.srcaddr := rfl
@[simp] theorem State.setPc_bankMap (v : Addr) : (s.setPc v).bankMap = s.bankMap := rfl
@[simp] theorem State.setPc_rom (v : Addr) : (s.setPc v).rom = s.rom := rfl
@[simp] theorem State.setPc_ram (v : Addr) : (s.setPc v).ram = s.ram := rfl
@[simp] theorem State.setPc_ramPort (v : Addr) : (s.setPc v).ramPort = s.ramPort := rfl
@[simp] theorem State.setPc_romPort (v : Addr) : (s.setPc v).romPort = s.romPort := rfl
@[simp] theorem State.setPc_events (v : Addr) : (s.setPc v).events = s.events := rfl
@[simp] theorem State.setPc_testInputs (v : Addr) : (s.setPc v).testInputs = s.testInputs := rfl
@[simp] theorem State.setPc_testDraws (v : Addr) : (s.setPc v).testDraws = s.testDraws := rfl
@[simp] theorem State.setPc_portInputs (v : Addr) : (s.setPc v).portInputs = s.portInputs := rfl
@[simp] theorem State.setPc_portDraws (v : Addr) : (s.setPc v).portDraws = s.portDraws := rfl

@[simp] theorem State.setStk_acc (v : List Addr) : (s.setStk v).acc = s.acc := rfl
@[simp] theorem State.setStk_cy (v : List Addr) : (s.setStk v).cy = s.cy := rfl
@[simp] theorem State.setStk_x (v : List Addr) : (s.setStk v).x = s.x := rfl
@[simp] theorem State.setStk_pc (v : List Addr) : (s.setStk v).pc = s.pc := rfl
@[simp] theorem State.setStk_stk (v : List Addr) : (s.setStk v).stk = v := rfl
@[simp] theorem State.setStk_bank (v : List Addr) : (s.setStk v).bank = s.bank := rfl
@[simp] theorem State.setStk_srcaddr (v : List Addr) : (s.setStk v).srcaddr = s.srcaddr := rfl
@[simp] theorem State.setStk_bankMap (v : List Addr) : (s.setStk v).bankMap = s.bankMap := rfl
@[simp] theorem State.setStk_rom (v : List Addr) : (s.setStk v).rom = s.rom := rfl
@[simp] theorem State.setStk_ram (v : List Addr) : (s.setStk v).ram = s.ram := rfl
@[simp] theorem State.setStk_ramPort (v : List Addr) : (s.setStk v).ramPort = s.ramPort := rfl
@[simp] theorem State.setStk_romPort (v : List Addr) : (s.setStk v).romPort = s.romPort := rfl
@[simp] theorem State.setStk_events (v : List Addr) : (s.setStk v).events = s.events := rfl
@[simp] theorem State.setStk_testInputs (v : List Addr) : (s.setStk v).testInputs = s.testInputs := rfl
@[simp] theorem State.setStk_testDraws (v : List Addr) : (s.setStk v).testDraws = s.testDraws := rfl
@[simp] theorem State.setStk_portInputs (v : List Addr) : (s.setStk v).portInputs = s.portInputs := rfl
@[simp] theorem State.setStk_portDraws (v : List Addr) : (s.setStk v).portDraws = s.portDraws := rfl

@[simp] theorem State.setBank_acc (v : BitVec 3) : (s.setBank v).acc = s.acc := rfl
@[simp] theorem State.setBank_cy (v : BitVec 3) : (s.setBank v).cy = s.cy := rfl
@[simp] theorem State.setBank_x (v : BitVec 3) : (s.setBank v).x = s.x := rfl
@[simp] theorem State.setBank_pc (v : BitVec 3) : (s.setBank v).pc = s.pc := rfl
@[simp] theorem State.setBank_stk (v : BitVec 3) : (s.setBank v).stk = s.stk := rfl
@[simp] theorem State.setBank_bank (v : BitVec 3) : (s.setBank v).bank = v := rfl
@[simp] theorem State.setBank_srcaddr (v : BitVec 3) : (s.setBank v).srcaddr = s.srcaddr := rfl
@[simp] theorem State.setBank_bankMap (v : BitVec 3) : (s.setBank v).bankMap = s.bankMap := rfl
@[simp] theorem State.setBank_rom (v : BitVec 3) : (s.setBank v).rom = s.rom := rfl
@[simp] theorem State.setBank_ram (v : BitVec 3) : (s.setBank v).ram = s.ram := rfl
@[simp] theorem State.setBank_ramPort (v : BitVec 3) : (s.setBank v).ramPort = s.ramPort := rfl
@[simp] theorem State.setBank_romPort (v : BitVec 3) : (s.setBank v).romPort = s.romPort := rfl
@[simp] theorem State.setBank_events (v : BitVec 3) : (s.setBank v).events = s.events := rfl
@[simp] theorem State.setBank_testInputs (v : BitVec 3) : (s.setBank v).testInputs = s.testInputs := rfl
@[simp] theorem State.setBank_testDraws (v : BitVec 3) : (s.setBank v).testDraws = s.testDraws := rfl
@[simp] theorem State.setBank_portInputs (v : BitVec 3) : (s.setBank v).portInputs = s.portInputs := rfl
@[simp] theorem State.setBank_portDraws (v : BitVec 3) : (s.setBank v).portDraws = s.portDraws := rfl

@[simp] theorem State.setSrcaddr_acc (v : Option Byte) : (s.setSrcaddr v).acc = s.acc := rfl
@[simp] theorem State.setSrcaddr_cy (v : Option Byte) : (s.setSrcaddr v).cy = s.cy := rfl
@[simp] theorem State.setSrcaddr_x (v : Option Byte) : (s.setSrcaddr v).x = s.x := rfl
@[simp] theorem State.setSrcaddr_pc (v : Option Byte) : (s.setSrcaddr v).pc = s.pc := rfl
@[simp] theorem State.setSrcaddr_stk (v : Option Byte) : (s.setSrcaddr v).stk = s.stk := rfl
@[simp] theorem State.setSrcaddr_bank (v : Option Byte) : (s.setSrcaddr v).bank = s.bank := rfl
@[simp] theorem State.setSrcaddr_srcaddr (v : Option Byte) : (s.setSrcaddr v).srcaddr = v := rfl
@[simp] theorem State.setSrcaddr_bankMap (v : Option Byte) : (s.setSrcaddr v).bankMap = s.bankMap := rfl
@[simp] theorem State.setSrcaddr_rom (v : Option Byte) : (s.setSrcaddr v).rom = s.rom := rfl
@[simp] theorem State.setSrcaddr_ram (v : Option Byte) : (s.setSrcaddr v).ram = s.ram := rfl
@[simp] theorem State.setSrcaddr_ramPort (v : Option Byte) : (s.setSrcaddr v).ramPort = s.ramPort := rfl
@[simp] theorem State.setSrcaddr_romPort (v : Option Byte) : (s.setSrcaddr v).romPort = s.romPort := rfl
@[simp] theorem State.setSrcaddr_events (v : Option Byte) : (s.setSrcaddr v).events = s.events := rfl
@[simp] theorem State.setSrcaddr_testInputs (v : Option Byte) : (s.setSrcaddr v).testInputs = s.testInputs := rfl
@[simp] theorem State.setSrcaddr_testDraws (v : Option Byte) : (s.setSrcaddr v).testDraws = s.testDraws := rfl
@[simp] theorem State.setSrcaddr_portInputs (v : Option Byte) : (s.setSrcaddr v).portInputs = s.portInputs := rfl
@[simp] theorem State.setSrcaddr_portDraws (v : Option Byte) : (s.setSrcaddr v).portDraws = s.portDraws := rfl

@[simp] theorem State.setRom_acc (v : Memory 8) : (s.setRom v).acc = s.acc := rfl
@[simp] theorem State.setRom_cy (v : Memory 8) : (s.setRom v).cy = s.cy := rfl
@[simp] theorem State.setRom_x (v : Memory 8) : (s.setRom v).x = s.x := rfl
@[simp] theorem State.setRom_pc (v : Memory 8) : (s.setRom v).pc = s.pc := rfl
@[simp] theorem State.setRom_stk (v : Memory 8) : (s.setRom v).stk = s.stk := rfl
@[simp] theorem State.setRom_bank (v : Memory 8) : (s.setRom v).bank = s.bank := rfl
@[simp] theorem State.setRom_srcaddr (v : Memory 8) : (s.setRom v).srcaddr = s.srcaddr := rfl
@[simp] theorem State.setRom_bankMap (v : Memory 8) : (s.setRom v).bankMap = s.bankMap := rfl
@[simp] theorem State.setRom_rom (v : Memory 8) : (s.setRom v).rom = v := rfl
@[simp] theorem State.setRom_ram (v : Memory 8) : (s.setRom v).ram = s.ram := rfl
@[simp] theorem State.setRom_ramPort (v : Memory 8) : (s.setRom v).ramPort = s.ramPort := rfl
@[simp] theorem State.setRom_romPort (v : Memory 8) : (s.setRom v).romPort = s.romPort := rfl
@[simp] theorem State.setRom_events (v : Memory 8) : (s.setRom v).events = s.events := rfl
@[simp] theorem State.setRom_testInputs (v : Memory 8) : (s.setRom v).testInputs = s.testInputs := rfl
@[simp] theorem State.setRom_testDraws (v : Memory 8) : (s.setRom v).testDraws = s.testDraws := rfl
@[simp] theorem State.setRom_portInputs (v : Memory 8) : (s.setRom v).portInputs = s.portInputs := rfl
@[simp] theorem State.setRom_portDraws (v : Memory 8) : (s.setRom v).portDraws = s.portDraws := rfl

@[simp] theorem State.setRam_acc (v : Memory 4) : (s.setRam v).acc = s.acc := rfl
@[simp] theorem State.setRam_cy (v : Memory 4) : (s.setRam v).cy = s.cy := rfl
@[simp] theorem State.setRam_x (v : Memory 4) : (s.setRam v).x = s.x := rfl
@[simp] theorem State.setRam_pc (v : Memory 4) : (s.setRam v).pc = s.pc := rfl
@[simp] theorem State.setRam_stk (v : Memory 4) : (s.setRam v).stk = s.stk := rfl
@[simp] theorem State.setRam_bank (v : Memory 4) : (s.setRam v).bank = s.bank := rfl
@[simp] theorem State.setRam_srcaddr (v : Memory 4) : (s.setRam v).srcaddr = s.srcaddr := rfl
@[simp] theorem State.setRam_bankMap (v : Memory 4) : (s.setRam v).bankMap = s.bankMap := rfl
@[simp] theorem State.setRam_rom (v : Memory 4) : (s.setRam v).rom = s.rom := rfl
@[simp] theorem State.setRam_ram (v : Memory 4) : (s.setRam v).ram = v := rfl
@[simp] theorem State.setRam_ramPort (v : Memory 4) : (s.setRam v).ramPort = s.ramPort := rfl
@[simp] theorem State.setRam_romPort (v : Memory 4) : (s.setRam v).romPort = s.romPort := rfl
@[simp] theorem State.setRam_events (v : Memory 4) : (s.setRam v).events = s.events := rfl
@[simp] theorem State.setRam_testInputs (v : Memory 4) : (s.setRam v).testInputs = s.testInputs := rfl
@[simp] theorem State.setRam_testDraws (v : Memory 4) : (s.setRam v).testDraws = s.testDraws := rfl
@[simp] theorem State.setRam_portInputs (v : Memory 4) : (s.setRam v).portInputs = s.portInputs := rfl
@[simp] theorem State.setRam_portDraws (v : Memory 4) : (s.setRam v).portDraws = s.portDraws := rfl

@[simp] theorem State.setRamPort_acc (v : Vector Nibble 16) : (s.setRamPort v).acc = s.acc := rfl
@[simp] theorem State.setRamPort_cy (v : Vector Nibble 16) : (s.setRamPort v).cy = s.cy := rfl
@[simp] theorem State.setRamPort_x (v : Vector Nibble 16) : (s.setRamPort v).x = s.x := rfl
@[simp] theorem State.setRamPort_pc (v : Vector Nibble 16) : (s.setRamPort v).pc = s.pc := rfl
@[simp] theorem State.setRamPort_stk (v : Vector Nibble 16) : (s.setRamPort v).stk = s.stk := rfl
@[simp] theorem State.setRamPort_bank (v : Vector Nibble 16) : (s.setRamPort v).bank = s.bank := rfl
@[simp] theorem State.setRamPort_srcaddr (v : Vector Nibble 16) : (s.setRamPort v).srcaddr = s.srcaddr := rfl
@[simp] theorem State.setRamPort_bankMap (v : Vector Nibble 16) : (s.setRamPort v).bankMap = s.bankMap := rfl
@[simp] theorem State.setRamPort_rom (v : Vector Nibble 16) : (s.setRamPort v).rom = s.rom := rfl
@[simp] theorem State.setRamPort_ram (v : Vector Nibble 16) : (s.setRamPort v).ram = s.ram := rfl
@[simp] theorem State.setRamPort_ramPort (v : Vector Nibble 16) : (s.setRamPort v).ramPort = v := rfl
@[simp] theorem State.setRamPort_romPort (v : Vector Nibble 16) : (s.setRamPort v).romPort = s.romPort := rfl
@[simp] theorem State.setRamPort_events (v : Vector Nibble 16) : (s.setRamPort v).events = s.events := rfl
@[simp] theorem State.setRamPort_testInputs (v : Vector Nibble 16) : (s.setRamPort v).testInputs = s.testInputs := rfl
@[simp] theorem State.setRamPort_testDraws (v : Vector Nibble 16) : (s.setRamPort v).testDraws = s.testDraws := rfl
@[simp] theorem State.setRamPort_portInputs (v : Vector Nibble 16) : (s.setRamPort v).portInputs = s.portInputs := rfl
@[simp] theorem State.setRamPort_portDraws (v : Vector Nibble 16) : (s.setRamPort v).portDraws = s.portDraws := rfl

@[simp] theorem State.setRomPort_acc (v : Vector Nibble 16) : (s.setRomPort v).acc = s.acc := rfl
@[simp] theorem State.setRomPort_cy (v : Vector Nibble 16) : (s.setRomPort v).cy = s.cy := rfl
@[simp] theorem State.setRomPort_x (v : Vector Nibble 16) : (s.setRomPort v).x = s.x := rfl
@[simp] theorem State.setRomPort_pc (v : Vector Nibble 16) : (s.setRomPort v).pc = s.pc := rfl
@[simp] theorem State.setRomPort_stk (v : Vector Nibble 16) : (s.setRomPort v).stk = s.stk := rfl
@[simp] theorem State.setRomPort_bank (v : Vector Nibble 16) : (s.setRomPort v).bank = s.bank := rfl
@[simp] theorem State.setRomPort_srcaddr (v : Vector Nibble 16) : (s.setRomPort v).srcaddr = s.srcaddr := rfl
@[simp] theorem State.setRomPort_bankMap (v : Vector Nibble 16) : (s.setRomPort v).bankMap = s.bankMap := rfl
@[simp] theorem State.setRomPort_rom (v : Vector Nibble 16) : (s.setRomPort v).rom = s.rom := rfl
@[simp] theorem State.setRomPort_ram (v : Vector Nibble 16) : (s.setRomPort v).ram = s.ram := rfl
@[simp] theorem State.setRomPort_ramPort (v : Vector Nibble 16) : (s.setRomPort v).ramPort = s.ramPort := rfl
@[simp] theorem State.setRomPort_romPort (v : Vector Nibble 16) : (s.setRomPort v).romPort = v := rfl
@[simp] theorem State.setRomPort_events (v : Vector Nibble 16) : (s.setRomPort v).events = s.events := rfl
@[simp] theorem State.setRomPort_testInputs (v : Vector Nibble 16) : (s.setRomPort v).testInputs = s.testInputs := rfl
@[simp] theorem State.setRomPort_testDraws (v : Vector Nibble 16) : (s.setRomPort v).testDraws = s.testDraws := rfl
@[simp] theorem State.setRomPort_portInputs (v : Vector Nibble 16) : (s.setRomPort v).portInputs = s.portInputs := rfl
@[simp] theorem State.setRomPort_portDraws (v : Vector Nibble 16) : (s.setRomPort v).portDraws = s.portDraws := rfl

@[simp] theorem State.setEvents_acc (v : List OutputEvent) : (s.setEvents v).acc = s.acc := rfl
@[simp] theorem State.setEvents_cy (v : List OutputEvent) : (s.setEvents v).cy = s.cy := rfl
@[simp] theorem State.setEvents_x (v : List OutputEvent) : (s.setEvents v).x = s.x := rfl
@[simp] theorem State.setEvents_pc (v : List OutputEvent) : (s.setEvents v).pc = s.pc := rfl
@[simp] theorem State.setEvents_stk (v : List OutputEvent) : (s.setEvents v).stk = s.stk := rfl
@[simp] theorem State.setEvents_bank (v : List OutputEvent) : (s.setEvents v).bank = s.bank := rfl
@[simp] theorem State.setEvents_srcaddr (v : List OutputEvent) : (s.setEvents v).srcaddr = s.srcaddr := rfl
@[simp] theorem State.setEvents_bankMap (v : List OutputEvent) : (s.setEvents v).bankMap = s.bankMap := rfl
@[simp] theorem State.setEvents_rom (v : List OutputEvent) : (s.setEvents v).rom = s.rom := rfl
@[simp] theorem State.setEvents_ram (v : List OutputEvent) : (s.setEvents v).ram = s.ram := rfl
@[simp] theorem State.setEvents_ramPort (v : List OutputEvent) : (s.setEvents v).ramPort = s.ramPort := rfl
@[simp] theorem State.setEvents_romPort (v : List OutputEvent) : (s.setEvents v).romPort = s.romPort := rfl
@[simp] theorem State.setEvents_events (v : List OutputEvent) : (s.setEvents v).events = v := rfl
@[simp] theorem State.setEvents_testInputs (v : List OutputEvent) : (s.setEvents v).testInputs = s.testInputs := rfl
@[simp] theorem State.setEvents_testDraws (v : List OutputEvent) : (s.setEvents v).testDraws = s.testDraws := rfl
@[simp] theorem State.setEvents_portInputs (v : List OutputEvent) : (s.setEvents v).portInputs = s.portInputs := rfl
@[simp] theorem State.setEvents_portDraws (v : List OutputEvent) : (s.setEvents v).portDraws = s.portDraws := rfl

@[simp] theorem State.setTestInput_acc (v : List Bit) (n : Nat) : (s.setTestInput v n).acc = s.acc := rfl
@[simp] theorem State.setTestInput_cy (v : List Bit) (n : Nat) : (s.setTestInput v n).cy = s.cy := rfl
@[simp] theorem State.setTestInput_x (v : List Bit) (n : Nat) : (s.setTestInput v n).x = s.x := rfl
@[simp] theorem State.setTestInput_pc (v : List Bit) (n : Nat) : (s.setTestInput v n).pc = s.pc := rfl
@[simp] theorem State.setTestInput_stk (v : List Bit) (n : Nat) : (s.setTestInput v n).stk = s.stk := rfl
@[simp] theorem State.setTestInput_bank (v : List Bit) (n : Nat) : (s.setTestInput v n).bank = s.bank := rfl
@[simp] theorem State.setTestInput_srcaddr (v : List Bit) (n : Nat) : (s.setTestInput v n).srcaddr = s.srcaddr := rfl
@[simp] theorem State.setTestInput_bankMap (v : List Bit) (n : Nat) : (s.setTestInput v n).bankMap = s.bankMap := rfl
@[simp] theorem State.setTestInput_rom (v : List Bit) (n : Nat) : (s.setTestInput v n).rom = s.rom := rfl
@[simp] theorem State.setTestInput_ram (v : List Bit) (n : Nat) : (s.setTestInput v n).ram = s.ram := rfl
@[simp] theorem State.setTestInput_ramPort (v : List Bit) (n : Nat) : (s.setTestInput v n).ramPort = s.ramPort := rfl
@[simp] theorem State.setTestInput_romPort (v : List Bit) (n : Nat) : (s.setTestInput v n).romPort = s.romPort := rfl
@[simp] theorem State.setTestInput_events (v : List Bit) (n : Nat) : (s.setTestInput v n).events = s.events := rfl
@[simp] theorem State.setTestInput_testInputs (v : List Bit) (n : Nat) : (s.setTestInput v n).testInputs = v := rfl
@[simp] theorem State.setTestInput_testDraws (v : List Bit) (n : Nat) : (s.setTestInput v n).testDraws = n := rfl
@[simp] theorem State.setTestInput_portInputs (v : List Bit) (n : Nat) : (s.setTestInput v n).portInputs = s.portInputs := rfl
@[simp] theorem State.setTestInput_portDraws (v : List Bit) (n : Nat) : (s.setTestInput v n).portDraws = s.portDraws := rfl

@[simp] theorem State.setPortInput_acc (v : List Nibble) (n : Nat) : (s.setPortInput v n).acc = s.acc := rfl
@[simp] theorem State.setPortInput_cy (v : List Nibble) (n : Nat) : (s.setPortInput v n).cy = s.cy := rfl
@[simp] theorem State.setPortInput_x (v : List Nibble) (n : Nat) : (s.setPortInput v n).x = s.x := rfl
@[simp] theorem State.setPortInput_pc (v : List Nibble) (n : Nat) : (s.setPortInput v n).pc = s.pc := rfl
@[simp] theorem State.setPortInput_stk (v : List Nibble) (n : Nat) : (s.setPortInput v n).stk = s.stk := rfl
@[simp] theorem State.setPortInput_bank (v : List Nibble) (n : Nat) : (s.setPortInput v n).bank = s.bank := rfl
@[simp] theorem State.setPortInput_srcaddr (v : List Nibble) (n : Nat) : (s.setPortInput v n).srcaddr = s.srcaddr := rfl
@[simp] theorem State.setPortInput_bankMap (v : List Nibble) (n : Nat) : (s.setPortInput v n).bankMap = s.bankMap := rfl
@[simp] theorem State.setPortInput_rom (v : List Nibble) (n : Nat) : (s.setPortInput v n).rom = s.rom := rfl
@[simp] theorem State.setPortInput_ram (v : List Nibble) (n : Nat) : (s.setPortInput v n).ram = s.ram := rfl
@[simp] theorem State.setPortInput_ramPort (v : List Nibble) (n : Nat) : (s.setPortInput v n).ramPort = s.ramPort := rfl
@[simp] theorem State.setPortInput_romPort (v : List Nibble) (n : Nat) : (s.setPortInput v n).romPort = s.romPort := rfl
@[simp] theorem State.setPortInput_events (v : List Nibble) (n : Nat) : (s.setPortInput v n).events = s.events := rfl
@[simp] theorem State.setPortInput_testInputs (v : List Nibble) (n : Nat) : (s.setPortInput v n).testInputs = s.testInputs := rfl
@[simp] theorem State.setPortInput_testDraws (v : List Nibble) (n : Nat) : (s.setPortInput v n).testDraws = s.testDraws := rfl
@[simp] theorem State.setPortInput_portInputs (v : List Nibble) (n : Nat) : (s.setPortInput v n).portInputs = v := rfl
@[simp] theorem State.setPortInput_portDraws (v : List Nibble) (n : Nat) : (s.setPortInput v n).portDraws = n := rfl

end Sys2Proof.Machine
end

