-- ==== Sys2Proof/Laws/Ops.lean ====
section
/-! SUPPORT. One lemma for each shared operation: everything it can answer. -/

namespace Sys2Proof.Machine

variable {s t : State}

/-- `sel()` answers a selection exactly when an address is set and the bank code selects a bank. -/
theorem sel_ok_iff {r : RamSelection} :
    s.sel = .ok r ↔ ∃ addr b, s.srcaddr = some addr ∧ s.selectedBank = some b ∧ r = selectionAt b addr := by
  unfold State.sel
  cases s.srcaddr with
  | none => simp
  | some addr => cases s.selectedBank <;> simp [eq_comm]

/-- `sel()` faults for want of an address first, then of a bank. -/
theorem sel_error_iff {f : Fault} :
    s.sel = .error f ↔ (s.srcaddr = none ∧ f = .ramAddressUnset s.pc) ∨
      (s.srcaddr ≠ none ∧ s.selectedBank = none ∧ f = .ramBankInvalid s.pc s.bank) := by
  unfold State.sel
  cases s.srcaddr with
  | none => simp [eq_comm]
  | some addr => cases s.selectedBank <;> simp [eq_comm]

theorem rsel_ok_iff {k : Nibble} : s.rsel = .ok k ↔ ∃ addr, s.srcaddr = some addr ∧ k = addr.extractLsb' 4 4 := by
  unfold State.rsel
  cases s.srcaddr <;> simp [eq_comm]

theorem rsel_error_iff {f : Fault} : s.rsel = .error f ↔ s.srcaddr = none ∧ f = .ramAddressUnset s.pc := by
  unfold State.rsel
  cases s.srcaddr <;> simp [eq_comm]

/-- A RAM instruction completes exactly on a selection. -/
theorem onSelected_next_iff {k : RamSelection → State} :
    s.onSelected k = .next t ↔ ∃ r, s.sel = .ok r ∧ k r = t := by
  unfold State.onSelected
  cases s.sel <;> simp [raise]

theorem onSelected_fault_iff {k : RamSelection → State} {f : Fault} :
    s.onSelected k = .fault f ↔ s.sel = .error f := by
  unfold State.onSelected
  cases s.sel <;> simp [raise]

theorem onSelected_ne_refused {k : RamSelection → State} {r : Refusal} : s.onSelected k ≠ .refused r := by
  unfold State.onSelected
  cases s.sel <;> simp [raise]

theorem onRomPort_next_iff {k : Nibble → State} :
    s.onRomPort k = .next t ↔ ∃ p, s.rsel = .ok p ∧ k p = t := by
  unfold State.onRomPort
  cases s.rsel <;> simp [raise]

theorem onRomPort_fault_iff {k : Nibble → State} {f : Fault} : s.onRomPort k = .fault f ↔ s.rsel = .error f := by
  unfold State.onRomPort
  cases s.rsel <;> simp [raise]

theorem onRomPort_ne_refused {k : Nibble → State} {r : Refusal} : s.onRomPort k ≠ .refused r := by
  unfold State.onRomPort
  cases s.rsel <;> simp [raise]

theorem push_ok_iff {a : Addr} : s.push a = .ok t ↔ s.stk.length < 3 ∧ t = s.setStk (a :: s.stk) := by
  unfold State.push Config.stackDepth
  split <;> simp [*, eq_comm]

theorem push_error_iff {a : Addr} {f : Fault} : s.push a = .error f ↔ 3 ≤ s.stk.length ∧ f = .stackOverflow s.pc := by
  unfold State.push Config.stackDepth
  split
  · simp; omega
  · simp [eq_comm]; omega

theorem pop_ok_iff {a : Addr} : s.pop = .ok (a, t) ↔ ∃ rest, s.stk = a :: rest ∧ t = s.setStk rest := by
  unfold State.pop
  cases s.stk <;> simp [eq_comm]

theorem pop_error_iff {f : Fault} : s.pop = .error f ↔ s.stk = [] ∧ f = .stackUnderflow s.pc := by
  unfold State.pop
  cases s.stk <;> simp [eq_comm]

/-- JMS in terms of the stack. -/
theorem execJms_next_iff {a : Addr} :
    execJms a s = .next t ↔ s.stk.length < 3 ∧ t = (s.setStk (s.nextPc 2 :: s.stk)).setPc a := by
  unfold execJms
  cases h : s.push (s.nextPc 2) with
  | error f => have := (push_error_iff.mp h).1; simp [raise]; omega
  | ok u => obtain ⟨h1, rfl⟩ := push_ok_iff.mp h; simp [h1, eq_comm]

/-- BBL in terms of the stack. -/
theorem execBbl_next_iff {d : Nibble} :
    execBbl d s = .next t ↔ ∃ ret rest, s.stk = ret :: rest ∧ t = ((s.setStk rest).setAcc d).setPc ret := by
  unfold execBbl
  cases h : s.pop with
  | error f => simp [raise, (pop_error_iff.mp h).1]
  | ok p =>
    obtain ⟨a, u⟩ := p
    obtain ⟨rest, h1, rfl⟩ := pop_ok_iff.mp h
    simp [h1, eq_comm]

/-- A draw changes the model's input fields only. -/
theorem afterTest_eq : s.afterTest = { s with testInputs := s.testInputs.tail, testDraws := s.testDraws + 1 } := rfl

theorem afterPort_eq : s.afterPort = { s with portInputs := s.portInputs.tail, portDraws := s.portDraws + 1 } := rfl

/-- The level lined up is the level drawn. -/
theorem testLevel_of_queue {b : Bit} {bs : List Bit} (h : s.testInputs = b :: bs) : s.testLevel = b := by
  simp [State.testLevel, h]

theorem portLevel_of_queue {v : Nibble} {vs : List Nibble} (h : s.portInputs = v :: vs) (k : Nibble) :
    s.portLevel k = v := by
  simp [State.portLevel, h]

/-- The branch of JCN and ISZ writes `pc` only. -/
theorem branch_eq (take : Bool) (a8 : Byte) :
    s.branch take a8 = s.setPc (if take then s.inPageOfNext 2 a8 else s.nextPc 2) := by
  unfold State.branch
  cases take <;> rfl

theorem ramPortOut_eq (b : Fin 4) (c : BitVec 2) (v : Nibble) :
    s.ramPortOut b c v =
      { s with ramPort := s.ramPort.set (ramPortIndex b c) v, events := s.events ++ [.ramPort b c v] } := rfl

theorem romPortOut_eq (k v : Nibble) :
    s.romPortOut k v = { s with romPort := s.romPort.set k.toNat v k.isLt, events := s.events ++ [.romPort k v] } := rfl

/-- The even and the odd register of a pair are different registers. -/
theorem evenReg_ne_oddReg (p : RegPair) : evenReg p ≠ oddReg p := by
  simp [evenReg, oddReg, Fin.ext_iff]

theorem readReg_writeReg_same (r : Reg) (v : Nibble) : (s.writeReg r v).readReg r = v := by
  simp [State.readReg, State.writeReg]

theorem readReg_writeReg_other {r q : Reg} (v : Nibble) (h : q ≠ r) : (s.writeReg r v).readReg q = s.readReg q := by
  have : r.val ≠ q.val := fun e => h (Fin.ext e.symm)
  simp [State.readReg, State.writeReg, this]

/-- A pair holds what was written to it. -/
theorem readPair_writePair (p : RegPair) (v : Byte) : (s.writePair p v).readPair p = v := by
  unfold State.readPair State.writePair
  rw [readReg_writeReg_same, readReg_writeReg_other _ (evenReg_ne_oddReg p), readReg_writeReg_same]
  exact joinNibbles_split v

/-- Writing a pair leaves every other register alone. -/
theorem readReg_writePair_other {p : RegPair} {q : Reg} (v : Byte) (he : q ≠ evenReg p) (ho : q ≠ oddReg p) :
    (s.writePair p v).readReg q = s.readReg q := by
  unfold State.writePair
  rw [readReg_writeReg_other _ ho, readReg_writeReg_other _ he]

/-- An 8-bit address completed by the page of the following instruction, as a number. -/
theorem inPageOfNext_toNat (k : Nat) (a8 : Byte) :
    (s.inPageOfNext k a8).toNat = 256 * ((s.pc.toNat + k) % 4096 / 256) + a8.toNat := by
  unfold State.inPageOfNext State.nextPc
  rw [joinAddr_toNat, pageOf_toNat]
  simp only [BitVec.toNat_add, BitVec.toNat_ofNat]
  omega

/-- A fetch answers the instruction of the byte at `pc`, with the next byte if it has two. -/
theorem fetch_ok_iff {i : Instr} :
    s.fetch = .ok i ↔ decodeBytes (s.readRom s.pc)
      (if instrLength (s.readRom s.pc) = 1 then 0 else s.readRom (s.nextPc 1)) = some i := by
  unfold State.fetch State.fetchBytes
  dsimp only
  by_cases h : instrLength (s.readRom s.pc) = 1
  · rw [if_pos h, if_pos h, decode_cons, if_pos h]
    cases decodeBytes (s.readRom s.pc) 0 <;> simp
  · rw [if_neg h, if_neg h, decode_cons, if_neg h]
    dsimp only
    cases decodeBytes (s.readRom s.pc) (s.readRom (s.nextPc 1)) <;> simp

/-- A fetch faults exactly on a first byte that is no instruction. -/
theorem fetch_error_iff {f : Fault} :
    s.fetch = .error f ↔ decodeBytes (s.readRom s.pc) 0 = none ∧
      f = .illegalInstruction s.pc (s.readRom s.pc) := by
  unfold State.fetch State.fetchBytes
  dsimp only
  by_cases h : instrLength (s.readRom s.pc) = 1
  · rw [if_pos h, decode_cons, if_pos h]
    cases decodeBytes (s.readRom s.pc) 0 <;> simp [eq_comm]
  · rw [if_neg h, decode_cons, if_neg h]
    have hs := decodeBytes_isSome_eq (s.readRom s.pc) (s.readRom (s.nextPc 1))
    dsimp only
    generalize decodeBytes (s.readRom s.pc) 0 = d0 at hs ⊢
    generalize decodeBytes (s.readRom s.pc) (s.readRom (s.nextPc 1)) = d1 at hs ⊢
    cases d0 <;> cases d1 <;> simp at hs ⊢
    exact eq_comm

/-- What a step does when the instruction at `pc` is known. -/
theorem step_of_fetch {i : Instr} (h : s.fetch = .ok i) : step s = exec i s := by
  simp [step, h]

theorem step_of_fetch_error {f : Fault} (h : s.fetch = .error f) : step s = .fault f := by
  simp [step, h, raise]

/-- A step that goes on runs some instruction. -/
theorem step_next_exec (h : step s = .next t) : ∃ i, s.fetch = .ok i ∧ exec i s = .next t := by
  unfold step at h
  cases hf : s.fetch with
  | error f => simp [hf, raise] at h
  | ok i => exact ⟨i, rfl, by simpa [hf] using h⟩

end Sys2Proof.Machine
end

