-- ==== Sys2Proof/Laws/PerInstr.lean ====
section
/-! SUPPORT. Statements for all instructions, one lemma per constructor: the encoder's bytes decode to the instruction,
and its first byte is selected by the opcode table's row of its mnemonic and by no other. -/

namespace Sys2Proof.Laws.RoundTrip

/-- The bytes of `i`, whatever follows them, decode to `i` and leave what follows. -/
def Statement (i : Instr) : Prop := ∀ rest, decode (encode i ++ rest) = .ok (i, rest)

theorem nop : Statement .nop := fun _ => rfl
theorem jcn (c : Cond) (a : Byte) : Statement (.jcn c a) := by
  intro rest
  obtain ⟨t, k, z, v⟩ := c
  cases t <;> cases k <;> cases z <;> cases v <;> rfl
theorem fim (p : RegPair) (d : Byte) : Statement (.fim p d) := by
  intro rest
  fin_cases p <;> rfl
theorem src (p : RegPair) : Statement (.src p) := by
  intro rest
  fin_cases p <;> rfl
theorem fin (p : RegPair) : Statement (.fin p) := by
  intro rest
  fin_cases p <;> rfl
theorem jin (p : RegPair) : Statement (.jin p) := by
  intro rest
  fin_cases p <;> rfl
theorem jun (a : Addr) : Statement (.jun a) := by
  intro rest
  have key : ∀ l n, decode ([opByte 4 n, l] ++ rest) = .ok (.jun (joinAddr n l), rest) := by
    intro l
    refine forall_nibble fun k hk => ?_
    interval_cases k <;> rfl
  have h := key (offsetOf a) (pageOf a)
  rwa [joinAddr_split] at h
theorem jms (a : Addr) : Statement (.jms a) := by
  intro rest
  have key : ∀ l n, decode ([opByte 5 n, l] ++ rest) = .ok (.jms (joinAddr n l), rest) := by
    intro l
    refine forall_nibble fun k hk => ?_
    interval_cases k <;> rfl
  have h := key (offsetOf a) (pageOf a)
  rwa [joinAddr_split] at h
theorem inc (r : Reg) : Statement (.inc r) := by
  intro rest
  fin_cases r <;> rfl
theorem isz (r : Reg) (a : Byte) : Statement (.isz r a) := by
  intro rest
  fin_cases r <;> rfl
theorem add (r : Reg) : Statement (.add r) := by
  intro rest
  fin_cases r <;> rfl
theorem sub (r : Reg) : Statement (.sub r) := by
  intro rest
  fin_cases r <;> rfl
theorem ld (r : Reg) : Statement (.ld r) := by
  intro rest
  fin_cases r <;> rfl
theorem xch (r : Reg) : Statement (.xch r) := by
  intro rest
  fin_cases r <;> rfl
theorem bbl (d : Nibble) : Statement (.bbl d) := by
  intro rest
  refine forall_nibble (P := fun n => decode (encode (.bbl n) ++ rest) = .ok (.bbl n, rest)) (fun k hk => ?_) d
  interval_cases k <;> rfl
theorem ldm (d : Nibble) : Statement (.ldm d) := by
  intro rest
  refine forall_nibble (P := fun n => decode (encode (.ldm n) ++ rest) = .ok (.ldm n, rest)) (fun k hk => ?_) d
  interval_cases k <;> rfl
theorem wrm : Statement .wrm := fun _ => rfl
theorem wmp : Statement .wmp := fun _ => rfl
theorem wrr : Statement .wrr := fun _ => rfl
theorem wr0 : Statement .wr0 := fun _ => rfl
theorem wr1 : Statement .wr1 := fun _ => rfl
theorem wr2 : Statement .wr2 := fun _ => rfl
theorem wr3 : Statement .wr3 := fun _ => rfl
theorem sbm : Statement .sbm := fun _ => rfl
theorem rdm : Statement .rdm := fun _ => rfl
theorem rdr : Statement .rdr := fun _ => rfl
theorem adm : Statement .adm := fun _ => rfl
theorem rd0 : Statement .rd0 := fun _ => rfl
theorem rd1 : Statement .rd1 := fun _ => rfl
theorem rd2 : Statement .rd2 := fun _ => rfl
theorem rd3 : Statement .rd3 := fun _ => rfl
theorem clb : Statement .clb := fun _ => rfl
theorem clc : Statement .clc := fun _ => rfl
theorem iac : Statement .iac := fun _ => rfl
theorem cmc : Statement .cmc := fun _ => rfl
theorem cma : Statement .cma := fun _ => rfl
theorem ral : Statement .ral := fun _ => rfl
theorem rar : Statement .rar := fun _ => rfl
theorem tcc : Statement .tcc := fun _ => rfl
theorem dac : Statement .dac := fun _ => rfl
theorem tcs : Statement .tcs := fun _ => rfl
theorem stc : Statement .stc := fun _ => rfl
theorem daa : Statement .daa := fun _ => rfl
theorem kbp : Statement .kbp := fun _ => rfl
theorem dcl : Statement .dcl := fun _ => rfl

end Sys2Proof.Laws.RoundTrip

namespace Sys2Proof.Laws.TableRow

/-- The rows of the opcode table that select a first byte are one row, with this mnemonic and length. -/
def OneRow (b1 : Byte) (mnemonic : String) (length : Nat) : Prop :=
  ∃ row, (opcodeTable.filter fun row => row.selects b1) = [row] ∧ row.mnemonic = mnemonic ∧ row.length = length

/-- The first byte of `i` is selected by the row of its mnemonic and by no other. -/
def Statement (i : Instr) : Prop := OneRow ((encode i).headD 0) i.mnemonic (encode i).length

theorem nop : Statement .nop := ⟨_, rfl, rfl, rfl⟩
theorem jcn (c : Cond) (a : Byte) : Statement (.jcn c a) := by
  have key : ∀ n, OneRow (opByte 1 n) "JCN" 2 := by
    refine forall_nibble fun k hk => ?_
    interval_cases k <;> exact ⟨_, rfl, rfl, rfl⟩
  exact key c.field
theorem fim (p : RegPair) (d : Byte) : Statement (.fim p d) := by
  have key : ∀ p, OneRow (opByte 2 (pairField p 0)) "FIM" 2 := by
    intro p
    fin_cases p <;> exact ⟨_, rfl, rfl, rfl⟩
  exact key p
theorem src (p : RegPair) : Statement (.src p) := by
  fin_cases p <;> exact ⟨_, rfl, rfl, rfl⟩
theorem fin (p : RegPair) : Statement (.fin p) := by
  fin_cases p <;> exact ⟨_, rfl, rfl, rfl⟩
theorem jin (p : RegPair) : Statement (.jin p) := by
  fin_cases p <;> exact ⟨_, rfl, rfl, rfl⟩
theorem jun (a : Addr) : Statement (.jun a) := by
  have key : ∀ n, OneRow (opByte 4 n) "JUN" 2 := by
    refine forall_nibble fun k hk => ?_
    interval_cases k <;> exact ⟨_, rfl, rfl, rfl⟩
  exact key (pageOf a)
theorem jms (a : Addr) : Statement (.jms a) := by
  have key : ∀ n, OneRow (opByte 5 n) "JMS" 2 := by
    refine forall_nibble fun k hk => ?_
    interval_cases k <;> exact ⟨_, rfl, rfl, rfl⟩
  exact key (pageOf a)
theorem inc (r : Reg) : Statement (.inc r) := by
  fin_cases r <;> exact ⟨_, rfl, rfl, rfl⟩
theorem isz (r : Reg) (a : Byte) : Statement (.isz r a) := by
  have key : ∀ n, OneRow (opByte 7 n) "ISZ" 2 := by
    refine forall_nibble fun k hk => ?_
    interval_cases k <;> exact ⟨_, rfl, rfl, rfl⟩
  exact key (regField r)
theorem add (r : Reg) : Statement (.add r) := by
  fin_cases r <;> exact ⟨_, rfl, rfl, rfl⟩
theorem sub (r : Reg) : Statement (.sub r) := by
  fin_cases r <;> exact ⟨_, rfl, rfl, rfl⟩
theorem ld (r : Reg) : Statement (.ld r) := by
  fin_cases r <;> exact ⟨_, rfl, rfl, rfl⟩
theorem xch (r : Reg) : Statement (.xch r) := by
  fin_cases r <;> exact ⟨_, rfl, rfl, rfl⟩
theorem bbl (d : Nibble) : Statement (.bbl d) := by
  refine forall_nibble (P := fun n => Statement (.bbl n)) (fun k hk => ?_) d
  interval_cases k <;> exact ⟨_, rfl, rfl, rfl⟩
theorem ldm (d : Nibble) : Statement (.ldm d) := by
  refine forall_nibble (P := fun n => Statement (.ldm n)) (fun k hk => ?_) d
  interval_cases k <;> exact ⟨_, rfl, rfl, rfl⟩
theorem wrm : Statement .wrm := ⟨_, rfl, rfl, rfl⟩
theorem wmp : Statement .wmp := ⟨_, rfl, rfl, rfl⟩
theorem wrr : Statement .wrr := ⟨_, rfl, rfl, rfl⟩
theorem wr0 : Statement .wr0 := ⟨_, rfl, rfl, rfl⟩
theorem wr1 : Statement .wr1 := ⟨_, rfl, rfl, rfl⟩
theorem wr2 : Statement .wr2 := ⟨_, rfl, rfl, rfl⟩
theorem wr3 : Statement .wr3 := ⟨_, rfl, rfl, rfl⟩
theorem sbm : Statement .sbm := ⟨_, rfl, rfl, rfl⟩
theorem rdm : Statement .rdm := ⟨_, rfl, rfl, rfl⟩
theorem rdr : Statement .rdr := ⟨_, rfl, rfl, rfl⟩
theorem adm : Statement .adm := ⟨_, rfl, rfl, rfl⟩
theorem rd0 : Statement .rd0 := ⟨_, rfl, rfl, rfl⟩
theorem rd1 : Statement .rd1 := ⟨_, rfl, rfl, rfl⟩
theorem rd2 : Statement .rd2 := ⟨_, rfl, rfl, rfl⟩
theorem rd3 : Statement .rd3 := ⟨_, rfl, rfl, rfl⟩
theorem clb : Statement .clb := ⟨_, rfl, rfl, rfl⟩
theorem clc : Statement .clc := ⟨_, rfl, rfl, rfl⟩
theorem iac : Statement .iac := ⟨_, rfl, rfl, rfl⟩
theorem cmc : Statement .cmc := ⟨_, rfl, rfl, rfl⟩
theorem cma : Statement .cma := ⟨_, rfl, rfl, rfl⟩
theorem ral : Statement .ral := ⟨_, rfl, rfl, rfl⟩
theorem rar : Statement .rar := ⟨_, rfl, rfl, rfl⟩
theorem tcc : Statement .tcc := ⟨_, rfl, rfl, rfl⟩
theorem dac : Statement .dac := ⟨_, rfl, rfl, rfl⟩
theorem tcs : Statement .tcs := ⟨_, rfl, rfl, rfl⟩
theorem stc : Statement .stc := ⟨_, rfl, rfl, rfl⟩
theorem daa : Statement .daa := ⟨_, rfl, rfl, rfl⟩
theorem kbp : Statement .kbp := ⟨_, rfl, rfl, rfl⟩
theorem dcl : Statement .dcl := ⟨_, rfl, rfl, rfl⟩

end Sys2Proof.Laws.TableRow
end

