-- ==== Sys2Proof/Laws/Run.lean ====
section
/-! SUPPORT. Sequences of instructions, one instruction or one part at a time. -/

namespace Sys2Proof.Machine

@[simp] theorem execSeq_nil (s : State) : execSeq [] s = .next s := rfl

/-- An instruction that goes on leaves the rest of the sequence to its next state. -/
theorem execSeq_cons_of_next {i : Instr} {is : List Instr} {s t : State} (h : exec i s = .next t) :
    execSeq (i :: is) s = execSeq is t := by
  simp only [execSeq, h]

/-- A sequence goes on exactly when its first instruction does and the rest goes on from there. -/
theorem execSeq_cons_next_iff {i : Instr} {is : List Instr} {s t : State} :
    execSeq (i :: is) s = .next t ↔ ∃ u, exec i s = .next u ∧ execSeq is u = .next t := by
  rw [show execSeq (i :: is) s = match exec i s with
    | .next u => execSeq is u
    | .fault f => .fault f
    | .refused r => .refused r from rfl]
  cases exec i s <;> simp

/-- A first part that goes on leaves the second part to its last state. -/
theorem execSeq_append_of_next {is js : List Instr} {s t : State} (h : execSeq is s = .next t) :
    execSeq (is ++ js) s = execSeq js t := by
  induction is generalizing s with
  | nil => cases h; rfl
  | cons i is ih =>
    obtain ⟨u, hu, ht⟩ := execSeq_cons_next_iff.mp h
    rw [List.cons_append, execSeq_cons_of_next hu, ih ht]

/-- A sequence of one instruction is that instruction. -/
@[simp] theorem execSeq_singleton (i : Instr) (s : State) : execSeq [i] s = exec i s := by
  simp only [execSeq]
  cases exec i s <;> rfl

end Sys2Proof.Machine
end

