-- ==== Sys2Proof/Laws/Sums.lean ====
section
/-! SUPPORT. The five-bit sums as numbers: the result and the carry are the two digits of the sum, base 16. -/

namespace Sys2Proof.Machine

/-- The result and the carry make up the sum. -/
theorem Sum5.digits (t : Sum5) : t.result.toNat + 16 * t.carry.toNat = t.toNat := by
  have h := t.isLt
  simp only [Sum5.result, Sum5.carry, BitVec.extractLsb'_toNat, Nat.shiftRight_eq_div_pow]
  omega

theorem addSum_toNat (a m : Nibble) (cy : Bit) : (addSum a m cy).toNat = a.toNat + m.toNat + cy.toNat := by
  have := a.isLt; have := m.isLt; have := cy.isLt
  simp only [addSum, BitVec.toNat_add, BitVec.toNat_setWidth]
  omega

theorem subSum_toNat (a m : Nibble) (cy : Bit) :
    (subSum a m cy).toNat = a.toNat + (15 - m.toNat) + (1 - cy.toNat) := by
  have := a.isLt; have := m.isLt; have := cy.isLt
  simp only [subSum, BitVec.toNat_add, BitVec.toNat_setWidth, BitVec.toNat_not]
  omega

theorem incSum_toNat (a : Nibble) : (incSum a).toNat = a.toNat + 1 := by
  have := a.isLt
  simp only [incSum]
  rw [BitVec.toNat_add, BitVec.toNat_setWidth]
  change (_ + 1) % _ = _
  omega

theorem decSum_toNat (a : Nibble) : (decSum a).toNat = a.toNat + 15 := by
  have := a.isLt
  simp only [decSum]
  rw [BitVec.toNat_add, BitVec.toNat_setWidth]
  change (_ + 15) % _ = _
  omega

theorem State.setSum_eq (s : State) (t : Sum5) : s.setSum t = { s with acc := t.result, cy := t.carry } := rfl

end Sys2Proof.Machine
end

