-- ==== Sys2Proof/Tests/Slice0.lean ====
section
/-! SUPPORT. Tests. The expected values are those of `spec/95_test_vectors.md` (its section in the docstring), unless
a docstring says otherwise. After them, for every statement of Certificates with hypotheses, a theorem
`test_meets_<Statement>` that gives a state and operands meeting all of them. -/

namespace Sys2Proof.Tests

open Sys2Proof.Machine

/-! ### Helpers -/

/-- The next state, if there is one. -/
def nextOf : Result → Option State
  | .next t => some t
  | .fault _ | .refused _ => none

/-- The fault, if there is one. -/
def faultOf : Result → Option Fault
  | .fault f => some f
  | .next _ | .refused _ => none

/-- `ACC` and `CY` after an instruction. -/
def accCy (i : Instr) (s : State) : Option (Nibble × Bit) := (nextOf (exec i s)).map fun t => (t.acc, t.cy)

/-- `pc` after an instruction. -/
def pcAfter (i : Instr) (s : State) : Option Addr := (nextOf (exec i s)).map (·.pc)

/-- The reset state with `ACC` and `CY`. -/
def start (a : Nibble) (c : Bit) : State := { State.reset with acc := a, cy := c }

/-- A state with an SRC address and a bank code. -/
def onRam (a : Nibble) (c : Bit) (addr : Byte) (bank : BitVec 3) : State :=
  { start a c with srcaddr := some addr, bank := bank }

/-- The instruction a list of bytes is, with nothing left over. -/
def decoded (bytes : List Byte) : Option Instr :=
  match decode bytes with
  | .ok (i, []) => some i
  | _ => none

/-- The bytes of a source text. -/
def assembled (text : String) : Option (List Byte) := (assembleText text).toOption

/-- Why a source text is rejected. -/
def asmError (text : String) : Option AsmError :=
  match assembleText text with
  | .error e => some e
  | .ok _ => none

/-! ### Well-formedness: an ill-formed term for each check -/

theorem test_reg_16_is_refused : operandsAdmitted [.reg] [16] = false := by decide
theorem test_pair_8_is_refused : operandsAdmitted [.pair] [8] = false := by decide
theorem test_data4_16_is_refused : operandsAdmitted [.data4] [16] = false := by decide
theorem test_data8_256_is_refused : operandsAdmitted [.pair, .data8] [7, 256] = false := by decide
theorem test_addr12_4096_is_refused : operandsAdmitted [.addr12] [4096] = false := by decide
theorem test_addr8_256_is_refused : operandsAdmitted [.reg, .addr8] [0, 256] = false := by decide
theorem test_cond_16_is_refused : operandsAdmitted [.cond, .addr8] [16, 0] = false := by decide
theorem test_missing_operand_is_refused : operandsAdmitted [.reg, .addr8] [0] = false := by decide
theorem test_extra_operand_is_refused : operandsAdmitted [] [0] = false := by decide
theorem test_largest_operands_are_admitted :
    operandsAdmitted [.reg, .pair, .data4, .data8, .addr12, .addr8, .cond] [15, 7, 15, 255, 4095, 255, 15] = true := by
  decide
theorem test_instruction_is_well_formed : (Instr.isz 15 0xFF).wellFormed = true := by decide

/-! ### Decoding, from the opcode map of `spec/30_encoding.md` R81 -/

theorem test_decode_nop : decoded [0b00000000] = some .nop := by decide
theorem test_decode_arithmetic :
    [decoded [0b10001011], decoded [0b10010111], decoded [0b01101110]] =
      [some (.add 11), some (.sub 7), some (.inc 14)] ∧
    [0b11110010, 0b11111000, 0b11111011].map (decoded [·]) = [some .iac, some .dac, some .daa] := by decide
theorem test_decode_logic :
    [0b11110100, 0b11110011, 0b11111010, 0b11110001, 0b11110000].map (decoded [·]) =
      [some .cma, some .cmc, some .stc, some .clc, some .clb] := by decide
theorem test_decode_rotate : [0b11110101, 0b11110110].map (decoded [·]) = [some .ral, some .rar] := by decide
theorem test_decode_transfer :
    [0b10101001, 0b10110010, 0b11011100, 0b11110111, 0b11111001].map (decoded [·]) =
      [some (.ld 9), some (.xch 2), some (.ldm 12), some .tcc, some .tcs] := by decide
theorem test_decode_pairs :
    [decoded [0b00101010, 0b11000100], decoded [0b00101011], decoded [0b00111110], decoded [0b00110111]] =
      [some (.fim 5 0xC4), some (.src 5), some (.fin 7), some (.jin 3)] := by decide
theorem test_decode_jumps :
    [decoded [0b01001001, 0b10100111], decoded [0b01010000, 0b00000101], decoded [0b00010100, 0b10000000],
      decoded [0b01111111, 0b11111111], decoded [0b11000011]] =
      [some (.jun 0x9A7), some (.jms 0x005), some (.jcn ⟨false, true, false, false⟩ 0x80),
        some (.isz 15 0xFF), some (.bbl 3)] := by decide
theorem test_decode_jcn_bits :
    [0b00011000, 0b00010010, 0b00010001].map (fun b => decoded [b, 0]) =
      [some (.jcn ⟨true, false, false, false⟩ 0), some (.jcn ⟨false, false, true, false⟩ 0),
        some (.jcn ⟨false, false, false, true⟩ 0)] := by decide
theorem test_decode_ram_writes :
    [0b11100000, 0b11100001, 0b11100010, 0b11100100, 0b11100101, 0b11100110, 0b11100111].map (decoded [·]) =
      [some .wrm, some .wmp, some .wrr, some .wr0, some .wr1, some .wr2, some .wr3] := by decide
theorem test_decode_ram_reads :
    [0b11101000, 0b11101001, 0b11101010, 0b11101011, 0b11101100, 0b11101101, 0b11101110, 0b11101111].map
      (decoded [·]) =
      [some .sbm, some .rdm, some .rdr, some .adm, some .rd0, some .rd1, some .rd2, some .rd3] := by decide
theorem test_decode_special : [0b11111100, 0b11111101].map (decoded [·]) = [some .kbp, some .dcl] := by decide
theorem test_decode_rejects :
    [0x01, 0x0F, 0xE3, 0xFE, 0xFF].map (decoded [·]) = [none, none, none, none, none] := by decide

/-- The counts of `spec/95_test_vectors.md` 2.11: 72 two-byte, 166 one-byte and 18 unassigned first bytes. -/
theorem test_first_byte_counts :
    let bs : List Byte := (List.range 256).map (BitVec.ofNat 8)
    bs.countP (fun b => (decodeBytes b 0).isSome && instrLength b == 2) = 72 ∧
    bs.countP (fun b => (decodeBytes b 0).isSome && instrLength b == 1) = 166 ∧
    bs.countP (fun b => (decodeBytes b 0).isNone) = 18 := by decide +kernel

/-- Table words are numbered as `spec/opcode_table.json` numbers them: the first byte is the high-order byte (log 8). -/
theorem test_table_words :
    decodeTableWord 8 0x8B = some (.add 11) ∧ decodeTableWord 16 0x2AC4 = some (.fim 5 0xC4) ∧
    decodeTableWord 16 0x49A7 = some (.jun 0x9A7) ∧ decodeTableWord 8 0x14 = some (.jcn ⟨false, true, false, false⟩ 0) ∧
    decodeTableWord 8 0xE3 = none := by decide

/-! ### The assembler (`spec/95_test_vectors.md` section 1: SV2, SV3, SV5, SV7) -/

theorem test_assemble_loop :
    assembled "LOOP: LDM 10      ; Load 10\n      XCH 0\n      INC 0\n      ISZ 0, LOOP\n      LDM 0 ; Done" =
      some [0xDA, 0xB0, 0x60, 0x70, 0x00, 0xD0] := by decide +kernel
theorem test_assemble_subroutine :
    assembled "LDM 5\nXCH 0\nJMS DOUBLE\n; Result in accumulator\nDOUBLE: LD 0\nXCH 1\nADD 1\nBBL 0" =
      some [0xD5, 0xB0, 0x50, 0x04, 0xA0, 0xB1, 0x81, 0xC0] := by decide +kernel
theorem test_assemble_condition :
    assembled "LD 0\nJCN NZ, ELSE\nLDM 1\nJUN END\nELSE: LDM 0\nEND: NOP" =
      some [0xA0, 0x13, 0x06, 0xD1, 0x40, 0x07, 0xD0, 0x00] := by decide +kernel
theorem test_assemble_formats :
    assembled "FIM 5, 0xC4\nJCN 0b0100, 0x80\nISZ 15, 0xFF\nSRC 5\nFIN 7\nJIN 7\nJUN 0x9A7" =
      some [0x2A, 0xC4, 0x14, 0x80, 0x7F, 0xFF, 0x2B, 0x3E, 0x3F, 0x49, 0xA7] := by decide +kernel
/-- R91: no pseudo-instruction; R80: operand ranges. -/
theorem test_assemble_rejects :
    asmError "HLT" = some (.unknownMnemonic "HLT") ∧ asmError "ADD 16" = some (.badOperands "ADD") ∧
    asmError "SRC 8" = some (.badOperands "SRC") ∧ asmError "JUN NOWHERE" = some (.unknownLabel "NOWHERE") := by
  decide +kernel

/-- Log 9: a label that no operand could name is rejected, as the operand is. -/
theorem test_assemble_rejects_label_that_is_no_name :
    asmError "1A: NOP" = some .badLine ∧ asmError "JUN 1A" = some .badLine ∧ asmError ": NOP" = some .badLine ∧
    asmError "A B: NOP" = some .badLine ∧ assembled "A1: JUN A1" = some [0x40, 0x00] := by decide +kernel

/-! ### One step of each instruction -/

/-- 2.1, at the end of ROM. -/
theorem test_nop : pcAfter .nop { State.reset with pc := 0xFFF } = some 0x000 := by decide

/-- 2.2. -/
theorem test_add : accCy (.add 3) ((start 9 1).writeReg 3 6) = some (0, 1) ∧
    accCy (.add 3) ((start 7 0).writeReg 3 8) = some (15, 0) := by decide
theorem test_add_all_ones : accCy (.add 3) ((start 15 1).writeReg 3 15) = some (15, 1) := by decide
theorem test_sub : accCy (.sub 3) ((start 9 0).writeReg 3 4) = some (5, 1) ∧
    accCy (.sub 3) ((start 0 1).writeReg 3 15) = some (0, 0) := by decide
theorem test_sub_borrows : accCy (.sub 3) ((start 0 0).writeReg 3 1) = some (15, 0) ∧
    accCy (.sub 3) ((start 5 1).writeReg 3 5) = some (15, 0) := by decide
theorem test_inc : (nextOf (exec (.inc 5) ((start 3 0).writeReg 5 15))).map (fun t => (t.readReg 5, t.acc, t.cy)) =
    some (0, 3, 1) := by decide
theorem test_inc_clears_carry : accCy (.inc 5) ((start 3 1).writeReg 5 14) = some (3, 0) := by decide
theorem test_iac : accCy .iac (start 15 0) = some (0, 1) ∧ accCy .iac (start 7 1) = some (8, 0) := by decide
theorem test_dac : accCy .dac (start 0 1) = some (15, 0) ∧ accCy .dac (start 1 0) = some (0, 1) := by decide
theorem test_daa_carry_clear :
    (List.range 16).map (fun k => accCy .daa (start (BitVec.ofNat 4 k) 0)) =
      [(0, 0), (1, 0), (2, 0), (3, 0), (4, 0), (5, 0), (6, 0), (7, 0), (8, 0), (9, 0),
       (0, 1), (1, 1), (2, 1), (3, 1), (4, 1), (5, 1)].map some := by decide +kernel
theorem test_daa_carry_set :
    (List.range 16).map (fun k => accCy .daa (start (BitVec.ofNat 4 k) 1)) =
      [(6, 1), (7, 1), (8, 1), (9, 1), (10, 1), (11, 1), (12, 1), (13, 1), (14, 1), (15, 1),
       (0, 1), (1, 1), (2, 1), (3, 1), (4, 1), (5, 1)].map some := by decide +kernel

/-- 2.3. -/
theorem test_cma : accCy .cma (start 0b1010 0) = some (0b0101, 0) ∧ accCy .cma (start 0 1) = some (15, 1) := by decide
theorem test_cmc : accCy .cmc (start 9 0) = some (9, 1) ∧ accCy .cmc (start 9 1) = some (9, 0) := by decide
theorem test_stc : accCy .stc (start 9 0) = some (9, 1) := by decide
theorem test_clc : accCy .clc (start 9 1) = some (9, 0) := by decide
theorem test_clb : accCy .clb (start 9 1) = some (0, 0) := by decide

/-- 2.4. -/
theorem test_ral : accCy .ral (start 0b0101 1) = some (0b1011, 0) ∧ accCy .ral (start 0b1000 1) = some (0b0001, 1) := by
  decide
theorem test_rar : accCy .rar (start 0b0101 1) = some (0b1010, 1) ∧ accCy .rar (start 0b1000 1) = some (0b1100, 0) := by
  decide

/-- 2.5. -/
theorem test_ld : accCy (.ld 7) ((start 2 1).writeReg 7 13) = some (13, 1) := by decide
theorem test_xch : (nextOf (exec (.xch 7) ((start 2 1).writeReg 7 13))).map (fun t => (t.acc, t.readReg 7, t.cy)) =
    some (13, 2, 1) := by decide
theorem test_ldm : accCy (.ldm 15) (start 0 1) = some (15, 1) := by decide
theorem test_tcc : accCy .tcc (start 9 1) = some (1, 0) ∧ accCy .tcc (start 9 0) = some (0, 0) := by decide
theorem test_tcs : accCy .tcs (start 3 1) = some (10, 0) ∧ accCy .tcs (start 3 0) = some (9, 0) := by decide

/-- 2.6. -/
theorem test_fim : (nextOf (exec (.fim 7 0xFE) { State.reset with pc := 0x010 })).map
    (fun t => (t.readReg 14, t.readReg 15, t.pc)) = some (15, 14, 0x012) := by decide
/-- The second byte comes from address 0x000. -/
theorem test_fim_across_end_of_rom :
    (nextOf (step { State.reset with pc := 0xFFF, rom := [(0, 0xAB), (0xFFF, 0x20)] })).map
      (fun t => (t.readReg 0, t.readReg 1, t.pc)) = some (10, 11, 0x001) := by decide
theorem test_src : (nextOf (exec (.src 3) ((State.reset.writeReg 6 0xA).writeReg 7 0x7))).map (·.srcaddr) =
    some (some 0xA7) := by decide
theorem test_fin_overwrites_its_address :
    (nextOf (exec (.fin 0) ({ State.reset with pc := 0x105, rom := [(0x140, 0xA7)] }.writeReg 0 4))).map
      (fun t => (t.readReg 0, t.readReg 1, t.pc)) = some (0xA, 0x7, 0x106) := by decide
theorem test_fin_pages :
    [0x1FE, 0x1FF, 0xFFF].map (fun p => ({ State.reset with pc := p }.writeReg 0 4).finAddr) =
      [0x140, 0x240, 0x040] := by decide
theorem test_jin : [0x23A, 0x1FE, 0x1FF, 0xFFF].map
      (fun p => pcAfter (.jin 3) (({ State.reset with pc := p }.writeReg 6 0xC).writeReg 7 0x4)) =
    [0x2C4, 0x1C4, 0x2C4, 0x0C4].map some := by decide

/-- 2.7. -/
theorem test_jun : pcAfter (.jun 0xABC) State.reset = some 0xABC := by decide
theorem test_jms : (nextOf (exec (.jms 0xFFF) { State.reset with pc := 0xFFE })).map (fun t => (t.pc, t.stk)) =
    some (0xFFF, [0x000]) := by decide
theorem test_jms_overflows :
    faultOf (exec (.jms 0x123) { State.reset with stk := [0x30, 0x20, 0x10] }) = some (.stackOverflow 0) := by decide
theorem test_bbl : (nextOf (exec (.bbl 7) { start 2 1 with stk := [0x012, 0x345] })).map
    (fun t => (t.pc, t.stk, t.acc, t.cy)) = some (0x012, [0x345], 7, 1) := by decide
theorem test_bbl_underflows : faultOf (exec (.bbl 7) (start 2 0)) = some (.stackUnderflow 0) := by decide
theorem test_isz : (nextOf (exec (.isz 3 0x34) ({ start 0 1 with pc := 0x100 }.writeReg 3 4))).map
    (fun t => (t.readReg 3, t.pc, t.cy)) = some (5, 0x134, 1) := by decide
theorem test_isz_falls_through : (nextOf (exec (.isz 3 0x34) ({ State.reset with pc := 0x100 }.writeReg 3 15))).map
    (fun t => (t.readReg 3, t.pc, t.cy)) = some (0, 0x102, 0) := by decide
/-- The truth table of 2.7, condition by condition; columns in its order. -/
theorem test_jcn_truth_table :
    (List.range 16).map (fun k => ([(0, 0, 0), (0, 0, 1), (0, 1, 0), (0, 1, 1), (4, 0, 0), (4, 0, 1), (4, 1, 0),
        (4, 1, 1)] : List (Nibble × Bit × Bit)).map
          (fun v => (Cond.take (condOfField (BitVec.ofNat 4 k)) v.1 v.2.1 v.2.2).toNat)) =
      [[0, 0, 0, 0, 0, 0, 0, 0], [1, 1, 1, 1, 1, 1, 1, 1], [1, 1, 1, 1, 0, 0, 0, 0], [0, 0, 0, 0, 1, 1, 1, 1],
       [0, 0, 1, 1, 0, 0, 1, 1], [1, 1, 0, 0, 1, 1, 0, 0], [1, 1, 1, 1, 0, 0, 1, 1], [0, 0, 0, 0, 1, 1, 0, 0],
       [1, 0, 1, 0, 1, 0, 1, 0], [0, 1, 0, 1, 0, 1, 0, 1], [1, 1, 1, 1, 1, 0, 1, 0], [0, 0, 0, 0, 0, 1, 0, 1],
       [1, 0, 1, 1, 1, 0, 1, 1], [0, 1, 0, 0, 0, 1, 0, 0], [1, 1, 1, 1, 1, 0, 1, 1], [0, 0, 0, 0, 0, 1, 0, 0]] := by
  decide +kernel
/-- The page table of 2.7: always taken, and never taken. -/
theorem test_jcn_pages :
    ([0x1FD, 0x1FE, 0x1FF, 0xFFD, 0xFFE, 0xFFF] : List Addr).map (fun p =>
      (pcAfter (.jcn (condOfField 1) 0x34) { State.reset with pc := p },
        pcAfter (.jcn (condOfField 0) 0x34) { State.reset with pc := p })) =
    [(some 0x134, some 0x1FF), (some 0x234, some 0x200), (some 0x234, some 0x201), (some 0xF34, some 0xFFF),
      (some 0x034, some 0x000), (some 0x034, some 0x001)] := by decide
/-- A draw is used up, and its level decides. -/
theorem test_jcn_draws_the_pin :
    (nextOf (exec (.jcn (condOfField 9) 0x03) { State.reset with pc := 0x003, testInputs := [1, 0] })).map
      (fun t => (t.pc, t.testInputs, t.testDraws)) = some (0x003, [0], 1) := by decide

/-- 2.8. -/
theorem test_wrm : (nextOf (exec .wrm (onRam 7 0 0xFF 4))).map (·.ram) = some [(1023, 7)] := by decide
theorem test_wmp : (nextOf (exec .wmp (onRam 9 0 0xA7 1))).map (fun t => (t.readRamPort 1 2, t.events)) =
    some (9, [.ramPort 1 2 9]) := by decide
theorem test_wrr_ignores_bank : (nextOf (exec .wrr (onRam 3 0 0x12 3))).map (fun t => (t.readRomPort 1, t.events)) =
    some (3, [.romPort 1 3]) := by decide
theorem test_wr0 : (nextOf (exec .wr0 (onRam 5 0 0x00 0))).map (·.ram) = some [(1024, 5)] := by decide
theorem test_wr1 : (nextOf (exec .wr1 (onRam 9 0 0xA7 2))).map (·.ram) = some [(1193, 9)] := by decide
theorem test_wr2 : (nextOf (exec .wr2 (onRam 1 0 0xA0 2))).map (fun t => t.readStatus 2 10 2) = some 1 := by decide
theorem test_wr3 : (nextOf (exec .wr3 (onRam 15 0 0xFF 4))).map (·.ram) = some [(1279, 15)] := by decide
theorem test_rdm : accCy .rdm ((onRam 0 1 0x12 0).writeMain 0 0x12 7) = some (7, 1) := by decide
theorem test_rdr : (nextOf (exec .rdr { onRam 0 1 0x30 3 with portInputs := [0b0110] })).map
    (fun t => (t.acc, t.readRomPort 3, t.portInputs, t.portDraws)) = some (6, 0, [], 1) := by decide
theorem test_rd0_to_rd3 :
    let s := ((((onRam 0 0 0x2C 1).writeStatus 1 2 0 3).writeStatus 1 2 1 4).writeStatus 1 2 2 5).writeStatus 1 2 3 6
    [Instr.rd0, .rd1, .rd2, .rd3].map (fun i => accCy i s) = [(3, 0), (4, 0), (5, 0), (6, 0)].map some := by decide
theorem test_sbm : accCy .sbm ((onRam 9 0 0x12 0).writeMain 0 0x12 7) = some (2, 1) ∧
    accCy .sbm ((onRam 3 1 0x12 0).writeMain 0 0x12 3) = some (15, 0) := by decide
theorem test_adm : accCy .adm ((onRam 9 1 0x12 0).writeMain 0 0x12 7) = some (1, 1) ∧
    accCy .adm (onRam 0 0 0x12 0) = some (0, 0) := by decide

/-- 2.9. -/
theorem test_kbp : (List.range 16).map (fun k => (nextOf (exec .kbp (start (BitVec.ofNat 4 k) 1))).map (·.acc.toNat)) =
    [0, 1, 2, 15, 3, 15, 15, 15, 4, 15, 15, 15, 15, 15, 15, 15].map some := by decide +kernel
theorem test_dcl : (nextOf (exec .dcl (onRam 0b1010 0 0x12 0))).map (fun t => (t.bank, t.srcaddr, t.acc)) =
    some (2, none, 0b1010) := by decide

/-! ### Faults (2.10), reset and fetch -/

theorem test_illegal_instructions :
    ([0x01, 0x0F, 0xE3, 0xFE, 0xFF] : List Byte).map (fun b => faultOf (step { State.reset with rom := [(0, b)] })) =
      ([0x01, 0x0F, 0xE3, 0xFE, 0xFF] : List Byte).map (fun b => some (.illegalInstruction 0 b)) := by decide
theorem test_ram_faults :
    faultOf (exec .wrm State.reset) = some (.ramAddressUnset 0) ∧
    faultOf (exec .rdr State.reset) = some (.ramAddressUnset 0) ∧
    faultOf (exec .wrm (onRam 0 0 0x12 3)) = some (.ramBankInvalid 0 3) ∧
    faultOf (exec .wrm { State.reset with bank := 3 }) = some (.ramAddressUnset 0) := by decide
/-- The default of `BANK_MAP`, `spec/10_state.md` R21. -/
theorem test_default_bank_map :
    (List.range 8).map (fun k => { State.reset with bank := BitVec.ofNat 3 k }.selectedBank) =
      [some 0, some 1, some 2, none, some 3, none, none, none] := by decide
/-- Log 2: nothing placed in ROM reads as NOP. -/
theorem test_reset_runs_a_nop : (nextOf (step State.reset)).map (·.pc) = some 0x001 := by decide
/-- A table word placed where the next step fetches is what it runs, at reset and across the end of ROM. -/
theorem test_with_fetch_word :
    (nextOf (step (State.reset.withFetchWord 16 0x4ABC))).map (·.pc) = some 0xABC ∧
    (nextOf (step ({ State.reset with pc := 0xFFF }.withFetchWord 16 0x5123))).map (fun t => (t.pc, t.stk)) =
      some (0x123, [0x001]) ∧
    (nextOf (step (State.reset.withFetchWord 8 0xDF))).map (·.acc) = some 15 := by decide
/-- SV9: 4 instructions take 345.6 microseconds, 164 take 14169.6. -/
theorem test_timing : runTimeTenths 4 = 3456 ∧ runTimeTenths 164 = 141696 := by decide
theorem test_fault_codes :
    [Fault.illegalInstruction 0 1, .stackOverflow 0, .stackUnderflow 0, .ramAddressUnset 0, .ramBankInvalid 0 3].map
      Fault.code = [1, 2, 3, 4, 5] := by decide

/-! ### The hypotheses of the statements are met -/

/-- A state away from reset: every field at a value of its own, with `JUN 0x9A7` at `pc`. -/
def rich : State :=
  { State.reset with
    acc := 9, cy := 1, x := #v[9, 9, 2, 3, 4, 5, 6, 7, 8, 9, 10, 11, 12, 13, 14, 15], pc := 0x1FE,
    stk := [0x012, 0x345], bank := 4, srcaddr := some 0xFF, rom := [(0x1FE, 0x49), (0x1FF, 0xA7), (0xFFF, 0xFF)],
    ram := [(0, 1), (1023, 5), (1279, 15)], events := [.romPort 1 2], testInputs := [0], portInputs := [6] }

theorem test_rich_invariant : rich.Inv := by decide
theorem test_rich_selection : rich.srcaddr = some 0xFF ∧ rich.selectedBank = some 3 := by decide

theorem test_meets_DecodeInvertsEncode : (Instr.jcn ⟨true, true, true, true⟩ 0xFF).wellFormed = true := by decide
theorem test_meets_EncodeInvertsDecode : decode [0x7F, 0xFF, 0x00] = .ok (.isz 15 0xFF, [0x00]) := rfl
/-- Both clauses, at the two bytes that differ in bit 0 only. -/
theorem test_meets_LengthFollowsFirstByte :
    decode [0x2E, 0xFE, 0x01] = .ok (.fim 7 0xFE, [0x01]) ∧ decode [0x2F, 0xFE] = .ok (.src 7, [0xFE]) := ⟨rfl, rfl⟩
theorem test_meets_StepRunsTheInstructionAtPc :
    decode [rich.readRom rich.pc, rich.readRom (rich.pc + 1)] = .ok (.jun 0x9A7, []) ∧
    (Instr.jun 0x9A7).wellFormed = true := ⟨rfl, rfl⟩
/-- Each clause, and two clauses' conditions at once: the address is tested first. -/
theorem test_meets_FaultsExactlyWhereTabled :
    rich.Inv ∧ exec (.jms 0) { rich with stk := [1, 2, 3] } = .fault (.stackOverflow 0x1FE) ∧
    exec (.bbl 0) { rich with stk := [] } = .fault (.stackUnderflow 0x1FE) ∧
    exec .rdr { rich with srcaddr := none } = .fault (.ramAddressUnset 0x1FE) ∧
    exec .rd3 { rich with bank := 7 } = .fault (.ramBankInvalid 0x1FE 7) ∧
    exec .wmp { rich with srcaddr := none, bank := 7 } = .fault (.ramAddressUnset 0x1FE) :=
  ⟨test_rich_invariant, rfl, rfl, rfl, rfl, rfl⟩
/-- Each of the eight codes. -/
theorem test_meets_LaunchGivesResetState :
    (List.range 8).map (fun k => ({ rich with bank := BitVec.ofNat 3 k }.bank,
      decide ({ rich with bank := BitVec.ofNat 3 k }.bankMap = State.reset.bankMap))) =
      [(0, true), (1, true), (2, true), (3, true), (4, true), (5, true), (6, true), (7, true)] := by decide
theorem test_meets_InvariantHoldsAfterReset :
    { Launch.empty with rom := [(0, 0xD5), (4095, 1)], ram := [(0, 1), (1279, 15)] }.Valid := by decide
theorem test_meets_StepKeepsInvariant : rich.Inv ∧ step rich = .next { rich with pc := 0x9A7 } :=
  ⟨test_rich_invariant, rfl⟩
theorem test_meets_StepNeverChangesProgramMemory : step rich = .next { rich with pc := 0x9A7 } := rfl
/-- Both clauses: neither written. -/
theorem test_meets_OnlyListedInstructionsWriteAccAndCarry :
    exec (.jun 0) rich = .next { rich with pc := 0 } ∧ (Instr.jun 0).writesAcc = false ∧
    (Instr.jun 0).writesCy = false := ⟨rfl, rfl, rfl⟩
theorem test_meets_OnlyCallAndReturnTouchStack :
    rich.Inv ∧ exec (.jms 5) rich = .next { rich with stk := [0x200, 0x012, 0x345], pc := 5 } ∧
    exec (.bbl 3) rich = .next { rich with stk := [0x345], acc := 3, pc := 0x012 } ∧
    exec (.jun 0) rich = .next { rich with pc := 0 } := ⟨test_rich_invariant, rfl, rfl, rfl⟩
theorem test_meets_OnlyDclAndSrcWriteControlState :
    exec .nop rich = .next { rich with pc := 0x1FF } ∧ Instr.nop ≠ .dcl ∧ ∀ p, Instr.nop ≠ .src p :=
  ⟨rfl, nofun, nofun⟩
theorem test_meets_OnlyNamedRegistersChange :
    (nextOf (exec (.fim 7 0x12) rich)).isSome = true ∧ (13 : Reg) ∉ writtenRegs (.fim 7 0x12) := by decide
theorem test_meets_RamChangesOnlyAtStoreAddress :
    rich.Inv ∧ (nextOf (exec .wr3 rich)).isSome = true ∧ rich.sel.toOption = some (selectionAt 3 0xFF) ∧
    storeLoc (selectionAt 3 0xFF) .wr3 ≠ some 1278 := by decide
theorem test_meets_OutputsOnlyFromPortWrites :
    (nextOf (exec .wmp rich)).isSome = true ∧ (nextOf (exec .wrr rich)).isSome = true ∧
    (nextOf (exec .rdr rich)).isSome = true := by decide
theorem test_meets_InputsDrawnOnlyWhenAsked :
    (nextOf (exec (.jcn ⟨true, false, false, false⟩ 0) rich)).isSome = true ∧
    (nextOf (exec (.jcn ⟨false, true, true, true⟩ 0) rich)).isSome = true ∧
    (nextOf (exec .rdr rich)).isSome = true := by decide
theorem test_meets_PcAdvancesByLengthUnlessTransfer :
    (Instr.fim 0 0).transfersControl = false ∧ (nextOf (exec (.fim 0 0) { rich with pc := 0xFFF })).isSome = true := by
  decide
theorem test_meets_StackIsInvisibleToOtherInstructions :
    (∀ a, Instr.wrm ≠ .jms a) ∧ (∀ d, Instr.wrm ≠ .bbl d) ∧ ∃ t, exec .wrm rich = .next t := ⟨nofun, nofun, _, rfl⟩
theorem test_meets_OutputsAreNeverReadBack : ∃ t, exec .rdr rich = .next t := ⟨_, rfl⟩
theorem test_meets_NopOnlyAdvancesPc :
    0x01 ≤ (0x01 : Byte).toNat ∧ (0x01 : Byte).toNat ≤ 0x0F ∧ 0x01 ≤ (0x0F : Byte).toNat ∧
    (0x0F : Byte).toNat ≤ 0x0F := by decide
theorem test_meets_AddAndAdmAddOperandAndCarry : rich.srcaddr = some 0xFF ∧ rich.selectedBank = some 3 :=
  test_rich_selection
theorem test_meets_SubAndSbmSubtractWithBorrow : rich.srcaddr = some 0xFF ∧ rich.selectedBank = some 3 :=
  test_rich_selection
/-- Both clauses at their boundary. -/
theorem test_meets_DaaAddsSixWhereNeeded :
    (9 < (start 10 0).acc.toNat ∨ (start 10 0).cy = 1) ∧ (9 < (start 0 1).acc.toNat ∨ (start 0 1).cy = 1) ∧
    ¬ (9 < (start 9 0).acc.toNat ∨ (start 9 0).cy = 1) := by decide
theorem test_meets_AddThenDaaAddsDecimalDigits : rich.acc.toNat ≤ 9 ∧ (rich.readReg 0).toNat ≤ 9 := by decide
theorem test_meets_SubCmcSubSubtractsTwoDigits :
    (start 0 0).cy = 0 ∧ (1 : Reg) ≠ 0 ∧ (1 : Reg) ≠ 2 := by decide
theorem test_meets_CmaComplementsAcc : ∃ t, exec .cma rich = .next t := ⟨_, rfl⟩
theorem test_meets_FlagInstructionsWriteCarry : (start 0 0).cy = 0 ∧ rich.cy = 1 := by decide
/-- XCH leaves another register alone. -/
theorem test_meets_LoadsAndExchange : (14 : Reg) ≠ 15 := by decide
theorem test_meets_IncIacDacCountByOne : (14 : Reg) ≠ 15 := by decide
/-- The three clauses at the last pair: its even, its odd, and another register. -/
theorem test_meets_FimWritesPairHighNibbleFirst :
    (14 : Reg).val = 2 * (7 : RegPair).val ∧ (15 : Reg).val = 2 * (7 : RegPair).val + 1 ∧
    (13 : Reg).val ≠ 2 * (7 : RegPair).val ∧ (13 : Reg).val ≠ 2 * (7 : RegPair).val + 1 := by decide
theorem test_meets_SrcLatchesPairAsAddress :
    (14 : Reg).val = 2 * (7 : RegPair).val ∧ (15 : Reg).val = 2 * (7 : RegPair).val + 1 := by decide
theorem test_meets_FinReadsRomThroughPairZero :
    (0 : Reg).val = 2 * (0 : RegPair).val ∧ (1 : Reg).val = 2 * (0 : RegPair).val + 1 ∧
    (2 : Reg).val ≠ 2 * (0 : RegPair).val ∧ (2 : Reg).val ≠ 2 * (0 : RegPair).val + 1 := by decide
theorem test_meets_JinJumpsWithinPageOfNext :
    (0 : Reg).val = 2 * (0 : RegPair).val ∧ (1 : Reg).val = 2 * (0 : RegPair).val + 1 := by decide
/-- Two, three and no return addresses. -/
theorem test_meets_JmsPushesAndBblPops :
    rich.stk.length < 3 ∧ { rich with stk := [1, 2, 3] }.stk.length = 3 ∧ rich.stk = 0x012 :: [0x345] ∧
    State.reset.stk = [] := by decide
theorem test_meets_CallsNestThreeDeepAndReturnInOrder : State.reset.stk = [] := rfl
/-- A level lined up; a condition that is taken and one that is not. -/
theorem test_meets_JcnTakesConditionOfItsFieldBits :
    rich.testInputs = 0 :: [] ∧ (8 : Nibble).getLsbD 3 = true ∧ rich.testLevel = 0 ∧ (8 : Nibble).getLsbD 0 = false ∧
    (9 : Nibble).getLsbD 0 = true := by decide
/-- Both clauses: 14 goes to 15, 15 to 0. -/
theorem test_meets_IszIncrementsAndJumpsUnlessZero :
    (nextOf (exec (.isz 14 0) rich)).map (·.readReg 14) = some 15 ∧
    (nextOf (exec (.isz 15 0) rich)).map (·.readReg 15) = some 0 ∧ (13 : Reg) ≠ 14 := by decide
/-- At the last address of a page from which an ISZ can reach itself. -/
theorem test_meets_IszLoopOnItselfCountsToZero :
    let s : State := { State.reset with pc := 0x1FD, rom := [(0x1FD, 0x75), (0x1FE, 0xFD)] }
    s.readRom s.pc = 0x75 ∧ s.readRom (s.pc + 1) = 0xFD ∧ decoded [0x75, 0xFD] = some (.isz 5 0xFD) ∧
    s.pc.toNat = 256 * ((s.pc.toNat + 2) % 4096 / 256) + (0xFD : Byte).toNat := by decide
theorem test_meets_WrmStoresAtMainLocation :
    rich.Inv ∧ rich.srcaddr = some 0xFF ∧ rich.selectedBank = some 3 ∧ 1022 ≠ mainLoc 3 0xFF := by decide
theorem test_meets_StatusWritesStoreAtStatusLocation :
    rich.Inv ∧ rich.srcaddr = some 0xFF ∧ rich.selectedBank = some 3 ∧ (15 : Nibble).toNat = (0xFF : Byte).toNat / 16 ∧
    (Instr.wr3, (3 : Fin 4)) ∈ [(Instr.wr0, (0 : Fin 4)), (.wr1, 1), (.wr2, 2), (.wr3, 3)] ∧
    1278 ≠ statusLoc 3 15 3 := by decide
theorem test_meets_RamReadsLoadAcc :
    rich.srcaddr = some 0xFF ∧ rich.selectedBank = some 3 ∧ (15 : Nibble).toNat = (0xFF : Byte).toNat / 16 ∧
    (Instr.rd3, (3 : Fin 4)) ∈ [(Instr.rd0, (0 : Fin 4)), (.rd1, 1), (.rd2, 2), (.rd3, 3)] := by decide
theorem test_meets_WhatIsWrittenIsReadBack :
    rich.Inv ∧ rich.srcaddr = some 0xFF ∧ rich.selectedBank = some 3 ∧
    (Instr.wrm, Instr.rdm) ∈ [(Instr.wrm, Instr.rdm), (.wr0, .rd0), (.wr1, .rd1), (.wr2, .rd2), (.wr3, .rd3)] := by
  decide
/-- The ends of both ranges: characters 0 and 1023, status characters 1024 and 1279. -/
theorem test_meets_RamLocationsNumberEveryCharacterOnce :
    mainLoc 0 0 = 0 ∧ mainLoc 3 0xFF = 1023 ∧ statusLoc 0 0 0 = 1024 ∧ statusLoc 3 15 3 = 1279 := by decide
theorem test_meets_PortWritesSetLatchAndEmitEvent :
    rich.srcaddr = some 0xFF ∧ rich.selectedBank = some 3 ∧ (3 : BitVec 2).toNat = (0xFF : Byte).toNat / 64 ∧
    (15 : Nibble).toNat = (0xFF : Byte).toNat / 16 ∧ ((3 : Fin 4), (2 : BitVec 2)) ≠ (3, 3) ∧
    (14 : Nibble) ≠ 15 := by decide
theorem test_meets_RdrLoadsThePlatformsInput :
    rich.srcaddr = some 0xFF ∧ (15 : Nibble).toNat = (0xFF : Byte).toNat / 16 ∧ rich.portInputs = 6 :: [] := by decide
/-- An instruction between DCL and the faulting one; one that needs no bank, and one that does. -/
theorem test_meets_BankSwitchUnsetsTheAddress :
    (nextOf (execSeq [.dcl, .ldm 5, .xch 0] rich)).isSome = true ∧ Instr.rdr.usesSrcaddr = true ∧
    Instr.rdr.usesBank = false ∧ Instr.rd3.usesSrcaddr = true ∧ (4 : Fin 8).val = (start 12 0).acc.toNat % 8 ∧
    (start 12 0).bankMap[(4 : Fin 8)] = some 3 := by decide
theorem test_meets_BankSwitchUnsetsTheAddress_no_src : ∀ p, Instr.src p ∉ [Instr.ldm 5, Instr.xch 0] := by decide
/-- The three clauses. -/
theorem test_meets_KbpGivesBitPosition :
    (start 0 0).acc = 0 ∧ (3 < 4 ∧ (start 8 0).acc.toNat = 2 ^ 3) ∧ (start 3 0).acc ≠ 0 ∧
    ∀ k, k < 4 → (start 3 0).acc.toNat ≠ 2 ^ k := by decide
theorem test_meets_ProgramImageRunsItsInstructions :
    let is : List Instr := [.fim 0 0x12, .src 0, .ldm 7]
    let s : State := { State.reset with rom := romImage (is.flatMap encode), pc := 2 }
    (([.fim 0 0x12] ++ .src 0 :: [.ldm 7] : List Instr).flatMap encode).length ≤ 4096 ∧
    s.rom = romImage (([.fim 0 0x12] ++ .src 0 :: [.ldm 7] : List Instr).flatMap encode) ∧
    s.pc.toNat = (([.fim 0 0x12] : List Instr).flatMap encode).length := by decide
/-- A run that ends, and one that faults at its first instruction. -/
theorem test_meets_RunEndsFirstTimeAtEnd :
    runUntil 0x001 3 State.reset = .ended 1 { State.reset with pc := 1 } ∧
    runUntil 0x002 3 { State.reset with rom := [(0, 0xE3)] } =
      .faulted 0 (.illegalInstruction 0 0xE3) { State.reset with rom := [(0, 0xE3)] } := ⟨rfl, rfl⟩
theorem test_meets_AssemblerKeepsJumpsInPage :
    Labels.find [("LOOP", 0x0FF)] "LOOP" = some 0x0FF ∧ 15 < 16 := by decide

end Sys2Proof.Tests
end

/-! ## The subroutine stack: which instructions touch it (`spec/10_state.md` R17) -/

namespace Sys2Proof.Machine

variable {s t : State}

/-! ### The shared updates leave the stack alone -/

@[simp] theorem State.advance_stk (s : State) (k : Nat) : (s.advance k).stk = s.stk := rfl

@[simp] theorem State.setSum_stk (s : State) (v : Sum5) : (s.setSum v).stk = s.stk := rfl

@[simp] theorem State.writeReg_stk (s : State) (r : Reg) (v : Nibble) : (s.writeReg r v).stk = s.stk := rfl

@[simp] theorem State.writePair_stk (s : State) (p : RegPair) (v : Byte) : (s.writePair p v).stk = s.stk := rfl

@[simp] theorem State.writeMain_stk (s : State) (b : Fin 4) (a : Byte) (v : Nibble) :
    (s.writeMain b a v).stk = s.stk := rfl

@[simp] theorem State.writeStatus_stk (s : State) (b : Fin 4) (g : Nibble) (n : Fin 4) (v : Nibble) :
    (s.writeStatus b g n v).stk = s.stk := rfl

@[simp] theorem State.ramPortOut_stk (s : State) (b : Fin 4) (c : BitVec 2) (v : Nibble) :
    (s.ramPortOut b c v).stk = s.stk := rfl

@[simp] theorem State.romPortOut_stk (s : State) (k v : Nibble) : (s.romPortOut k v).stk = s.stk := rfl

@[simp] theorem State.afterTest_stk (s : State) : s.afterTest.stk = s.stk := rfl

@[simp] theorem State.afterPort_stk (s : State) : s.afterPort.stk = s.stk := rfl

@[simp] theorem State.branch_stk (s : State) (take : Bool) (a8 : Byte) : (s.branch take a8).stk = s.stk := by
  rw [branch_eq, State.setPc_stk]

/-! ### Frames of the two shared shapes of a RAM or port instruction -/

/-- What the effect on every selection keeps, the instruction keeps. -/
theorem onSelected_keeps {α : Type} (field : State → α) {k : RamSelection → State}
    (hk : ∀ r, field (k r) = field s) (h : s.onSelected k = .next t) : field t = field s := by
  obtain ⟨r, -, rfl⟩ := onSelected_next_iff.mp h
  exact hk r

/-- What the effect on every ROM port keeps, the instruction keeps. -/
theorem onRomPort_keeps {α : Type} (field : State → α) {k : Nibble → State}
    (hk : ∀ p, field (k p) = field s) (h : s.onRomPort k = .next t) : field t = field s := by
  obtain ⟨p, -, rfl⟩ := onRomPort_next_iff.mp h
  exact hk p

/-! ### Every instruction -/

/-- JCN may draw the test pin before its branch; neither touches the stack. -/
theorem execJcn_keeps_stk {c : Cond} {a : Byte} (h : execJcn c a s = .next t) : t.stk = s.stk := by
  cases h
  rw [State.branch_stk]
  split <;> simp

/-- The stack's frame: the instructions other than JMS and BBL answer by updates that leave it alone, the RAM and port
instructions behind their selection. -/
theorem exec_keeps_stk {i : Instr} (hjms : ∀ a, i ≠ .jms a) (hbbl : ∀ d, i ≠ .bbl d) (h : exec i s = .next t) :
    t.stk = s.stk := by
  cases i with
  | jms a => exact absurd rfl (hjms a)
  | bbl d => exact absurd rfl (hbbl d)
  | jcn c a => exact execJcn_keeps_stk h
  | wrm | wmp | wr0 | wr1 | wr2 | wr3 | sbm | rdm | adm | rd0 | rd1 | rd2 | rd3 =>
    exact onSelected_keeps State.stk (fun r => by simp) h
  | wrr | rdr => exact onRomPort_keeps State.stk (fun p => by simp) h
  | nop | fim | src | fin | jin | jun | inc | isz | add | sub | ld | xch | ldm | clb | clc | iac | cmc | cma | ral
  | rar | tcc | dac | tcs | stc | daa | kbp | dcl =>
    cases h
    simp

/-- Everything an instruction can do to the stack: JMS pushes where there is room, BBL pops, any other leaves it. -/
theorem exec_stk_cases {i : Instr} (h : exec i s = .next t) :
    (∃ a, i = .jms a ∧ s.stk.length < 3 ∧ t.stk = s.nextPc 2 :: s.stk) ∨
    (∃ d ret, i = .bbl d ∧ s.stk = ret :: t.stk) ∨
    ((∀ a, i ≠ .jms a) ∧ (∀ d, i ≠ .bbl d) ∧ t.stk = s.stk) := by
  by_cases hjms : ∃ a, i = .jms a
  · obtain ⟨a, rfl⟩ := hjms
    obtain ⟨hroom, rfl⟩ := execJms_next_iff.mp h
    exact .inl ⟨a, rfl, hroom, by simp⟩
  by_cases hbbl : ∃ d, i = .bbl d
  · obtain ⟨d, rfl⟩ := hbbl
    obtain ⟨ret, rest, hstk, rfl⟩ := execBbl_next_iff.mp h
    exact .inr (.inl ⟨d, ret, rfl, by simp [hstk]⟩)
  · have hnj := not_exists.mp hjms
    have hnb := not_exists.mp hbbl
    exact .inr (.inr ⟨hnj, hnb, exec_keeps_stk hnj hnb h⟩)

/-- Settles O15, by the three things an instruction can do to the stack. -/
theorem onlyCallAndReturnTouchStack : Obligations.OnlyCallAndReturnTouchStack := by
  unfold Obligations.OnlyCallAndReturnTouchStack
  intro i s t ⟨hdepth, _, _⟩ h
  have hdepth : s.stk.length ≤ 3 := hdepth
  obtain ⟨a, rfl, hroom, hpush⟩ | ⟨d, ret, rfl, hpop⟩ | ⟨hnj, hnb, hkeep⟩ := exec_stk_cases h
  · have hlen : t.stk.length = s.stk.length + 1 := by simp [hpush]
    exact ⟨by omega, fun _ => ⟨_, hpush⟩, nofun, fun hnj => absurd rfl (hnj a)⟩
  · have hlen : s.stk.length = t.stk.length + 1 := by simp [hpop]
    exact ⟨by omega, nofun, fun _ => ⟨ret, hpop⟩, fun _ hnb => absurd rfl (hnb d)⟩
  · exact ⟨hkeep ▸ hdepth, fun ⟨a, ha⟩ => absurd ha (hnj a), fun ⟨d, hd⟩ => absurd hd (hnb d), fun _ _ => hkeep⟩

end Sys2Proof.Machine

/-! ## The first bytes that select no instruction (`spec/30_encoding.md` R82, R83) -/

namespace Sys2Proof

/-! ### The three rows of the opcode map (R81) that have gaps -/

theorem decodeRam_eq_none_iff (n : Nibble) : decodeRam n = none ↔ n.toNat = 3 := by
  revert n
  decide

theorem decodeAcc_eq_none_iff (n : Nibble) : decodeAcc n = none ↔ 14 ≤ n.toNat := by
  revert n
  decide

/-- Row by row of the opcode map: only 0000, 1110 and 1111 in the high nibble leave a low nibble without a meaning. -/
theorem decodeBytes_eq_none_iff (b1 b2 : Byte) : decodeBytes b1 b2 = none ↔
    ((highNibble b1).toNat = 0 ∧ (lowNibble b1).toNat ≠ 0) ∨
    ((highNibble b1).toNat = 14 ∧ (lowNibble b1).toNat = 3) ∨
    ((highNibble b1).toNat = 15 ∧ 14 ≤ (lowNibble b1).toNat) := by
  have hlt : (highNibble b1).toNat < 16 := (highNibble b1).isLt
  unfold decodeBytes
  dsimp only
  split
  case h_1 hrow => simp [hrow, ← BitVec.toNat_inj]
  case h_3 hrow | h_4 hrow => simp [hrow, ite_eq_iff]
  case h_15 hrow => simp [hrow, decodeRam_eq_none_iff]
  case h_16 =>
    have hrow : (highNibble b1).toNat = 15 := by grind
    simp [hrow, decodeAcc_eq_none_iff]
  all_goals
    rename_i hrow
    simp [hrow]

/-- The same, with the two nibbles read as one byte: the list of R83. -/
theorem decodeBytes_eq_none_iff_listed (b1 b2 : Byte) : decodeBytes b1 b2 = none ↔
    (0x01 ≤ b1.toNat ∧ b1.toNat ≤ 0x0F) ∨ b1 = 0xE3 ∨ b1 = 0xFE ∨ b1 = 0xFF := by
  rw [decodeBytes_eq_none_iff, highNibble_toNat, lowNibble_toNat]
  bv_omega

/-- A byte that selects no instruction counts as one byte long: no row with a gap has a two-byte format (R71). -/
theorem instrLength_of_decodeBytes_none {b1 b2 : Byte} (h : decodeBytes b1 b2 = none) : instrLength b1 = 1 := by
  unfold instrLength
  obtain ⟨hhigh, _⟩ | ⟨hhigh, _⟩ | ⟨hhigh, _⟩ := (decodeBytes_eq_none_iff b1 b2).mp h <;> simp [hhigh]

/-- The decoder rejects a first byte by name exactly when the opcode map has no entry for it. What follows the byte does
not matter: such a byte is rejected before a second one is asked for. -/
theorem decode_unassigned_iff (b : Byte) (rest : List Byte) :
    decode (b :: rest) = .error (.unassigned b) ↔ decodeBytes b 0 = none := by
  rw [decode_cons]
  by_cases hlen : instrLength b = 1
  · rw [if_pos hlen]
    cases decodeBytes b 0 <;> simp
  · have hsome : ∀ b2, decodeBytes b b2 ≠ none := fun b2 h => hlen (instrLength_of_decodeBytes_none h)
    rw [if_neg hlen]
    cases rest with
    | nil => simp [hsome]
    | cons b2 rest' =>
      obtain ⟨i, hi⟩ := Option.ne_none_iff_exists'.mp (hsome b2)
      simp [hi, hsome]

/-- Settles O3: a byte is rejected by name when the opcode map has no entry for it, and the map's gaps are those of its
rows 0000, 1110 and 1111. -/
theorem eighteenFirstBytesUnassigned : Obligations.EighteenFirstBytesUnassigned := by
  unfold Obligations.EighteenFirstBytesUnassigned
  intro b rest
  rw [decode_unassigned_iff, decodeBytes_eq_none_iff_listed]

end Sys2Proof

/-! ## NOP (`spec/40_nop.md` R100) -/

namespace Sys2Proof

/-! ### NOP has one entry in the opcode map (R81) -/

theorem decodeRam_ne_some_nop (n : Nibble) : decodeRam n ≠ some .nop := by
  revert n
  decide

theorem decodeAcc_ne_some_nop (n : Nibble) : decodeAcc n ≠ some .nop := by
  revert n
  decide

/-- Row by row of the opcode map: NOP stands in row 0000 alone, and there at 0000. -/
theorem decodeBytes_eq_some_nop_iff_nibbles (b1 b2 : Byte) : decodeBytes b1 b2 = some .nop ↔
    (highNibble b1).toNat = 0 ∧ (lowNibble b1).toNat = 0 := by
  unfold decodeBytes
  dsimp only
  split
  case h_1 hrow => simp [hrow, ← BitVec.toNat_inj]
  case h_3 hrow | h_4 hrow => simp [hrow, ite_eq_iff]
  case h_15 hrow => simp [hrow, decodeRam_ne_some_nop]
  case h_16 =>
    have hrow : (highNibble b1).toNat ≠ 0 := by assumption
    simp [hrow, decodeAcc_ne_some_nop]
  all_goals
    rename_i hrow
    simp [hrow]

/-- The same, with the two nibbles read as one byte. -/
theorem decodeBytes_eq_some_nop_iff (b1 b2 : Byte) : decodeBytes b1 b2 = some .nop ↔ b1 = 0x00 := by
  rw [decodeBytes_eq_some_nop_iff_nibbles, highNibble_toNat, lowNibble_toNat]
  bv_omega

/-- Decoding NOP takes the byte 0x00 and nothing after it: 0x00 has no second byte, and no other byte decodes to NOP,
with a second byte or without. -/
theorem decode_nop_iff (b : Byte) (rest rest' : List Byte) :
    decode (b :: rest) = .ok (.nop, rest') ↔ b = 0x00 ∧ rest' = rest := by
  have hlen : instrLength 0x00 = 1 := rfl
  simp only [decode_ok_iff, decodeBytes_eq_some_nop_iff]
  constructor
  · rintro (⟨-, rfl, rfl⟩ | ⟨hlong, -, -, rfl⟩)
    · exact ⟨rfl, rfl⟩
    · exact absurd hlen hlong
  · rintro ⟨rfl, rfl⟩
    exact .inl ⟨hlen, rfl, rfl⟩

/-- The rest of row 0000 is unassigned (R83). -/
theorem decode_unassigned_of_row_zero {b : Byte} (rest : List Byte) (hlo : 0x01 ≤ b.toNat) (hhi : b.toNat ≤ 0x0F) :
    decode (b :: rest) = .error (.unassigned b) :=
  (decode_unassigned_iff b rest).mpr ((decodeBytes_eq_none_iff_listed b 0).mpr (.inl ⟨hlo, hhi⟩))

end Sys2Proof

namespace Sys2Proof.Machine

/-! ### What NOP does -/

theorem exec_nop (s : State) : exec .nop s = .next (s.advance 1) := rfl

theorem State.advance_one (s : State) : s.advance 1 = { s with pc := s.pc + 1 } := rfl

/-- Settles O24: the opcode map has NOP at 0x00 alone and a gap in the rest of that row, and NOP only advances by its
one byte. -/
theorem nopOnlyAdvancesPc : Obligations.NopOnlyAdvancesPc := by
  unfold Obligations.NopOnlyAdvancesPc
  refine ⟨decode_nop_iff, fun _ rest => decode_unassigned_of_row_zero rest, fun s => ?_⟩
  rw [exec_nop, State.advance_one]

end Sys2Proof.Machine

/-! ## Complement and carry instructions (`spec/42_logic.md` R120 to R124) -/

namespace Sys2Proof.Machine

/-! ### What each of the five does -/

theorem exec_cma (s : State) : exec .cma s = .next { s with acc := ~~~s.acc, pc := s.pc + 1 } := rfl

theorem exec_cmc (s : State) : exec .cmc s = .next { s with cy := ~~~s.cy, pc := s.pc + 1 } := rfl

theorem exec_stc (s : State) : exec .stc s = .next { s with cy := 1, pc := s.pc + 1 } := rfl

theorem exec_clc (s : State) : exec .clc s = .next { s with cy := 0, pc := s.pc + 1 } := rfl

theorem exec_clb (s : State) : exec .clb s = .next { s with acc := 0, cy := 0, pc := s.pc + 1 } := rfl

/-! ### What complementing means for the value -/

/-- Inverting the four bits subtracts from 15, as R120 says. -/
theorem not_nibble_toNat (v : Nibble) : (~~~v).toNat = 15 - v.toNat := BitVec.toNat_not

/-- The second CMA inverts what the first one did, and each advances by its one byte. -/
theorem execSeq_cma_cma (s : State) : execSeq [.cma, .cma] s = .next { s with pc := s.pc + 2 } := by
  have hpc : s.pc + 1 + 1 = s.pc + 2 := BitVec.add_assoc s.pc 1 1
  rw [execSeq_cons_of_next (exec_cma s), execSeq_singleton, exec_cma, BitVec.not_not, hpc]

/-- Settles O31, by CMA's effect and what inverting a nibble does to its value, once and twice. -/
theorem cmaComplementsAcc : Obligations.CmaComplementsAcc := by
  unfold Obligations.CmaComplementsAcc
  refine ⟨rfl, exec_cma, fun s t h => ?_, execSeq_cma_cma⟩
  cases (exec_cma s).symm.trans h
  exact not_nibble_toNat s.acc

/-- Settles O32, by the effect of each of the four; for CMC, by inverting each value of the one bit. -/
theorem flagInstructionsWriteCarry : Obligations.FlagInstructionsWriteCarry := by
  unfold Obligations.FlagInstructionsWriteCarry
  refine ⟨⟨rfl, fun s => ⟨_, exec_cmc s, rfl, ?_, ?_⟩⟩, ⟨rfl, exec_stc⟩, ⟨rfl, exec_clc⟩, ⟨rfl, exec_clb⟩⟩
  · intro hcy
    simp [hcy]
  · intro hcy
    simp [hcy]

end Sys2Proof.Machine

/-! ## Data transfer (`spec/44_data_transfer.md` R140 to R143) -/

namespace Sys2Proof

/-! ### An opcode and its operand as one number -/

theorem regField_toNat (r : Reg) : (regField r).toNat = r.val := Nat.mod_eq_of_lt r.isLt

theorem opByte_toNat (opcode n : Nibble) : (opByte opcode n).toNat = 16 * opcode.toNat + n.toNat :=
  joinNibbles_toNat opcode n

theorem encode_ld_toNat (r : Reg) : (encode (.ld r)).map BitVec.toNat = [0xA0 + r.val] := by
  simp [encode, opByte_toNat, regField_toNat]

theorem encode_xch_toNat (r : Reg) : (encode (.xch r)).map BitVec.toNat = [0xB0 + r.val] := by
  simp [encode, opByte_toNat, regField_toNat]

theorem encode_ldm_toNat (d : Nibble) : (encode (.ldm d)).map BitVec.toNat = [0xD0 + d.toNat] := by
  simp [encode, opByte_toNat]

end Sys2Proof

namespace Sys2Proof.Machine

/-! ### What each of the four does -/

theorem exec_ld (r : Reg) (s : State) : exec (.ld r) s = .next { s with acc := s.readReg r, pc := s.pc + 1 } := rfl

/-- Both values are read before either is written. -/
theorem exec_xch (r : Reg) (s : State) : exec (.xch r) s =
    .next { s with acc := s.readReg r, x := (s.writeReg r s.acc).x, pc := s.pc + 1 } := rfl

theorem exec_ldm (d : Nibble) (s : State) : exec (.ldm d) s = .next { s with acc := d, pc := s.pc + 1 } := rfl

theorem exec_tcc (s : State) :
    exec .tcc s = .next { s with acc := s.cy.setWidth 4, cy := 0, pc := s.pc + 1 } := rfl

/-- The carry fits in ACC: widening it keeps its value, 0 or 1. -/
theorem carry_setWidth_toNat (c : Bit) : (c.setWidth 4).toNat = c.toNat :=
  BitVec.toNat_setWidth_of_le (by decide)

/-- Settles O35, by the encoding and the effect of each of the three; the swap is a register write that the same
register reads back and no other register sees. -/
theorem loadsAndExchange : Obligations.LoadsAndExchange := by
  unfold Obligations.LoadsAndExchange
  refine ⟨⟨encode_ld_toNat, fun s r => exec_ld r s⟩, ⟨encode_xch_toNat, fun s r => ⟨_, exec_xch r s, rfl, ?_, ?_⟩⟩,
    encode_ldm_toNat, fun s d => exec_ldm d s⟩
  · exact readReg_writeReg_same r s.acc
  · intro q hq
    exact readReg_writeReg_other s.acc hq

/-- Settles O36, by TCC's effect: ACC takes the carry widened to four bits. -/
theorem tccMovesCarryIntoAcc : Obligations.TccMovesCarryIntoAcc := by
  unfold Obligations.TccMovesCarryIntoAcc
  exact ⟨rfl, fun s => ⟨_, exec_tcc s, rfl, carry_setWidth_toNat s.cy⟩⟩

end Sys2Proof.Machine

/-! ## The unconditional jump (`spec/46_jump_branch.md` R160) -/

namespace Sys2Proof

theorem encode_jun_toNat (a : Addr) :
    (encode (.jun a)).map BitVec.toNat = [0x40 + a.toNat / 256, a.toNat % 256] := by
  simp [encode, opByte_toNat, pageOf_toNat, offsetOf_toNat]

end Sys2Proof

namespace Sys2Proof.Machine

theorem exec_jun (s : State) (a : Addr) : exec (.jun a) s = .next { s with pc := a } := rfl

/-- Settles O42, by the encoding and the effect of JUN; the loop is the jump to the value `pc` already has. -/
theorem junSetsPcOnly : Obligations.JunSetsPcOnly := by
  unfold Obligations.JunSetsPcOnly
  exact ⟨encode_jun_toNat, exec_jun, fun s => exec_jun s s.pc⟩

end Sys2Proof.Machine

/-! ## Decoding and encoding are inverse to each other (`spec/30_encoding.md` R71 to R83) -/

namespace Sys2Proof.Laws.RoundTrip

/-- The round trip of every instruction, constructor by constructor. -/
theorem statement_all : ∀ i, Statement i
  | .nop => nop
  | .jcn c a => jcn c a
  | .fim p d => fim p d
  | .src p => src p
  | .fin p => fin p
  | .jin p => jin p
  | .jun a => jun a
  | .jms a => jms a
  | .inc r => inc r
  | .isz r a => isz r a
  | .add r => add r
  | .sub r => sub r
  | .ld r => ld r
  | .xch r => xch r
  | .bbl d => bbl d
  | .ldm d => ldm d
  | .wrm => wrm
  | .wmp => wmp
  | .wrr => wrr
  | .wr0 => wr0
  | .wr1 => wr1
  | .wr2 => wr2
  | .wr3 => wr3
  | .sbm => sbm
  | .rdm => rdm
  | .rdr => rdr
  | .adm => adm
  | .rd0 => rd0
  | .rd1 => rd1
  | .rd2 => rd2
  | .rd3 => rd3
  | .clb => clb
  | .clc => clc
  | .iac => iac
  | .cmc => cmc
  | .cma => cma
  | .ral => ral
  | .rar => rar
  | .tcc => tcc
  | .dac => dac
  | .tcs => tcs
  | .stc => stc
  | .daa => daa
  | .kbp => kbp
  | .dcl => dcl

end Sys2Proof.Laws.RoundTrip

namespace Sys2Proof

/-! ### The encoder's bytes, decoded -/

theorem decode_encode (i : Instr) (rest : List Byte) : decode (encode i ++ rest) = .ok (i, rest) :=
  Laws.RoundTrip.statement_all i rest

/-- Settles O1, by the round trip of each constructor; the types of the operands leave no ill-formed instruction. -/
theorem decodeInvertsEncode : Obligations.DecodeInvertsEncode := by
  unfold Obligations.DecodeInvertsEncode
  intro i rest _
  exact decode_encode i rest

/-- Settles O5: each word is what the encoder gives for its instruction, so the decoder gives the instruction back. -/
theorem wordsOfEachFormatDecode : Obligations.WordsOfEachFormatDecode := by
  unfold Obligations.WordsOfEachFormatDecode
  intro rest
  exact ⟨decode_encode .nop rest, decode_encode (.add 11) rest, decode_encode (.ldm 12) rest,
    decode_encode (.bbl 3) rest, decode_encode (.src 5) rest, decode_encode (.jin 7) rest, decode_encode (.fin 7) rest,
    decode_encode (.fim 5 0xC4) rest, decode_encode (.jun 0x9A7) rest, decode_encode (.jms 0x005) rest,
    decode_encode (.jcn ⟨false, true, false, false⟩ 0x80) rest, decode_encode (.isz 15 0xFF) rest,
    decode_encode .dcl rest⟩

/-! ### The decoded bytes, encoded: row by row of the opcode map (R81) -/

theorem pairField_zero_pairOfField {n : Nibble} : ¬ n.getLsbD 0 = true → pairField (pairOfField n) 0 = n := by
  revert n
  decide

theorem pairField_one_pairOfField {n : Nibble} : n.getLsbD 0 = true → pairField (pairOfField n) 1 = n := by
  revert n
  decide

theorem encode_of_decodeRam {n : Nibble} {i : Instr} : decodeRam n = some i → encode i = [opByte 14 n] := by
  have key : ∀ n, ∀ i ∈ decodeRam n, encode i = [opByte 14 n] := by decide
  exact key n i

theorem encode_of_decodeAcc {n : Nibble} {i : Instr} : decodeAcc n = some i → encode i = [opByte 15 n] := by
  have key : ∀ n, ∀ i ∈ decodeAcc n, encode i = [opByte 15 n] := by decide
  exact key n i

theorem getLsbD_lowNibble_zero (b : Byte) : (lowNibble b).getLsbD 0 = b.getLsbD 0 := by
  simp [lowNibble]

/-- The encoder gives back the bytes of every entry of the opcode map, the first alone or both. The byte is taken apart
into its row and its low nibble; each field of the row is then its operand's own field. -/
theorem encode_of_decodeBytes {b1 b2 : Byte} {i : Instr} (h : decodeBytes b1 b2 = some i) :
    encode i = if instrLength b1 = 1 then [b1] else [b1, b2] := by
  have hlt : (highNibble b1).toNat < 16 := (highNibble b1).isLt
  have hbyte : opByte (BitVec.ofNat 4 (highNibble b1).toNat) (lowNibble b1) = b1 := by
    rw [BitVec.ofNat_toNat, BitVec.setWidth_eq]
    exact joinNibbles_split b1
  unfold decodeBytes at h
  unfold instrLength
  rw [← getLsbD_lowNibble_zero]
  dsimp only at h
  generalize (highNibble b1).toNat = row at *
  generalize lowNibble b1 = n at *
  subst hbyte
  split at h
  case h_1 =>
    obtain ⟨rfl, h⟩ := Option.ite_none_right_eq_some.mp h
    cases h
    rfl
  case h_3 =>
    split at h <;> rename_i hbit <;> cases h
    · rw [encode, pairField_one_pairOfField hbit, if_pos hbit]; rfl
    · rw [encode, pairField_zero_pairOfField hbit, if_neg hbit]; rfl
  case h_4 =>
    split at h <;> rename_i hbit <;> cases h
    · rw [encode, pairField_one_pairOfField hbit]; rfl
    · rw [encode, pairField_zero_pairOfField hbit]; rfl
  case h_15 => exact encode_of_decodeRam h
  case h_16 =>
    have hrow : row = 15 := by grind
    subst hrow
    exact encode_of_decodeAcc h
  all_goals
    cases h
    simp [encode, field_condOfField, regField_regOfField]

/-- Settles O2: what the decoder read is an entry of the opcode map, and the encoder gives its bytes back. -/
theorem encodeInvertsDecode : Obligations.EncodeInvertsDecode := by
  unfold Obligations.EncodeInvertsDecode
  intro bytes rest i h
  cases bytes with
  | nil => cases h
  | cons b tail =>
    obtain ⟨hlen, hmap, rfl⟩ | ⟨hlen, b2, rfl, hmap⟩ := decode_ok_iff.mp h
    · rw [encode_of_decodeBytes hmap, if_pos hlen]; rfl
    · rw [encode_of_decodeBytes hmap, if_neg hlen]; rfl

/-! ### Lengths (R71) -/

theorem instrLength_ne_one_iff (b : Byte) : instrLength b ≠ 1 ↔
    b.toNat / 16 = 1 ∨ b.toNat / 16 = 4 ∨ b.toNat / 16 = 5 ∨ b.toNat / 16 = 7 ∨
      (b.toNat / 16 = 2 ∧ b.toNat % 2 = 0) := by
  have hbit : b.getLsbD 0 = decide (b.toNat % 2 = 1) := by
    simp [BitVec.getLsbD, Nat.testBit_zero]
  unfold instrLength
  rw [highNibble_toNat, hbit]
  split
  case h_6 => grind
  all_goals simp [*]

/-- Settles O4: the bytes consumed are two exactly when the first byte's length is not one. -/
theorem lengthFollowsFirstByte : Obligations.LengthFollowsFirstByte := by
  unfold Obligations.LengthFollowsFirstByte
  intro b rest rest' i h
  obtain ⟨hlen, -, hrest⟩ | ⟨hlen, b2, hrest, -⟩ := decode_ok_iff.mp h
  · rwa [if_neg (fun htwo => (instrLength_ne_one_iff b).mpr htwo hlen)]
  · rw [if_pos ((instrLength_ne_one_iff b).mp hlen)]
    exact ⟨b2, hrest⟩

end Sys2Proof

/-! ## What can stop an instruction or a step (`spec/60_exceptions.md` R201 to R206) -/

namespace Sys2Proof.Machine

variable {s : State} {i : Instr} {f : Fault}

/-! ### The shapes of the arms of `exec` -/

theorem exec_jms (a : Addr) (s : State) : exec (.jms a) s = execJms a s := rfl

theorem exec_bbl (d : Nibble) (s : State) : exec (.bbl d) s = execBbl d s := rfl

/-- How an instruction may be held up in a state: by the stack, behind `sel()`, behind `rsel()`, or not at all. -/
inductive Shape (s : State) : Instr → Prop where
  | call (a : Addr) : Shape s (.jms a)
  | ret (d : Nibble) : Shape s (.bbl d)
  | selected {i : Instr} (hsrc : i.usesSrcaddr = true) (hbank : i.usesBank = true) (k : RamSelection → State)
      (h : exec i s = s.onSelected k) : Shape s i
  | romPort {i : Instr} (hsrc : i.usesSrcaddr = true) (hbank : i.usesBank = false) (k : Nibble → State)
      (h : exec i s = s.onRomPort k) : Shape s i
  | free {i : Instr} (hjms : ∀ a, i ≠ .jms a) (hbbl : ∀ d, i ≠ .bbl d) (hsrc : i.usesSrcaddr = false)
      (hbank : i.usesBank = false) (t : State) (h : exec i s = .next t) : Shape s i

theorem exec_shape (i : Instr) (s : State) : Shape s i := by
  cases i with
  | jms a => exact .call a
  | bbl d => exact .ret d
  | wrm | wmp | wr0 | wr1 | wr2 | wr3 | sbm | rdm | adm | rd0 | rd1 | rd2 | rd3 => exact .selected rfl rfl _ rfl
  | wrr | rdr => exact .romPort rfl rfl _ rfl
  | _ => exact .free nofun nofun rfl rfl _ rfl

theorem ne_jms_of_usesSrcaddr (h : i.usesSrcaddr = true) (a : Addr) : i ≠ .jms a := by
  rintro rfl
  cases h

theorem ne_bbl_of_usesSrcaddr (h : i.usesSrcaddr = true) (d : Nibble) : i ≠ .bbl d := by
  rintro rfl
  cases h

/-! ### Faults and refusals -/

theorem execJms_fault_iff {a : Addr} :
    execJms a s = .fault f ↔ 3 ≤ s.stk.length ∧ f = .stackOverflow s.pc := by
  rw [← push_error_iff (a := s.nextPc 2)]
  unfold execJms
  cases s.push (s.nextPc 2) <;> simp [raise]

theorem execBbl_fault_iff {d : Nibble} : execBbl d s = .fault f ↔ s.stk = [] ∧ f = .stackUnderflow s.pc := by
  rw [← pop_error_iff]
  unfold execBbl
  cases s.pop <;> simp [raise]

theorem execJms_ne_refused {a : Addr} {r : Refusal} : execJms a s ≠ .refused r := by
  unfold execJms
  cases s.push (s.nextPc 2) <;> simp [raise]

theorem execBbl_ne_refused {d : Nibble} {r : Refusal} : execBbl d s ≠ .refused r := by
  unfold execBbl
  cases s.pop <;> simp [raise]

/-- The fault table of R202 in the order of R206, for every state: each shape of arm has its own rows. -/
theorem exec_fault_iff : exec i s = .fault f ↔
    ((∃ a, i = .jms a) ∧ 3 ≤ s.stk.length ∧ f = .stackOverflow s.pc) ∨
    ((∃ d, i = .bbl d) ∧ s.stk = [] ∧ f = .stackUnderflow s.pc) ∨
    (i.usesSrcaddr = true ∧ s.srcaddr = none ∧ f = .ramAddressUnset s.pc) ∨
    (i.usesBank = true ∧ s.srcaddr ≠ none ∧ s.selectedBank = none ∧ f = .ramBankInvalid s.pc s.bank) := by
  cases exec_shape i s with
  | call a => simp [exec_jms, execJms_fault_iff, Instr.usesSrcaddr, Instr.usesBank]
  | ret d => simp [exec_bbl, execBbl_fault_iff, Instr.usesSrcaddr, Instr.usesBank]
  | selected hsrc hbank k h =>
    simp [h, onSelected_fault_iff, sel_error_iff, hsrc, hbank, ne_jms_of_usesSrcaddr hsrc, ne_bbl_of_usesSrcaddr hsrc]
  | romPort hsrc hbank k h =>
    simp [h, onRomPort_fault_iff, rsel_error_iff, hsrc, hbank, ne_jms_of_usesSrcaddr hsrc, ne_bbl_of_usesSrcaddr hsrc]
  | free hjms hbbl hsrc hbank t h => simp [h, hjms, hbbl, hsrc, hbank]

theorem exec_ne_refused (i : Instr) (s : State) (r : Refusal) : exec i s ≠ .refused r := by
  cases exec_shape i s with
  | call a => exact execJms_ne_refused
  | ret d => exact execBbl_ne_refused
  | selected _ _ k h => exact h ▸ onSelected_ne_refused
  | romPort _ _ k h => exact h ▸ onRomPort_ne_refused
  | free _ _ _ _ t h => simp [h]

theorem exec_ne_illegalInstruction (i : Instr) (s : State) (a : Addr) (b : Byte) :
    exec i s ≠ .fault (.illegalInstruction a b) := by
  rw [Ne, exec_fault_iff]
  simp

/-- Settles O8: no shape of arm answers a refusal, and a step is a fault of fetch or an instruction. -/
theorem noInstructionIsRefused : Obligations.NoInstructionIsRefused := by
  unfold Obligations.NoInstructionIsRefused
  refine ⟨exec_ne_refused, fun s r => ?_⟩
  cases hfetch : s.fetch with
  | error f => simp [step_of_fetch_error hfetch]
  | ok i =>
    rw [step_of_fetch hfetch]
    exact exec_ne_refused i s r

/-- Settles O9, by the fault table; the invariant leaves three as the only length that overflows. -/
theorem faultsExactlyWhereTabled : Obligations.FaultsExactlyWhereTabled := by
  unfold Obligations.FaultsExactlyWhereTabled
  intro i s f ⟨hdepth, _, _⟩
  have hdepth : s.stk.length ≤ 3 := hdepth
  have hfull : 3 ≤ s.stk.length ↔ s.stk.length = 3 := ⟨fun h => le_antisymm hdepth h, ge_of_eq⟩
  rw [exec_fault_iff, hfull, ← List.length_eq_zero_iff]

/-! ### Fetch and decode (R45, R82) -/

/-- The fetch reads the instruction at the head of the two bytes at `pc`. -/
theorem fetch_of_decode {rest : List Byte}
    (h : decode [s.readRom s.pc, s.readRom (s.nextPc 1)] = .ok (i, rest)) : s.fetch = .ok i := by
  rw [fetch_ok_iff]
  obtain ⟨hlen, hmap, -⟩ | ⟨hlen, b2, hb2, hmap⟩ := decode_ok_iff.mp h
  · rwa [if_pos hlen]
  · cases hb2
    rwa [if_neg hlen]

/-- Settles O6: the two bytes at `pc` begin with the instruction the fetch reads. -/
theorem stepRunsTheInstructionAtPc : Obligations.StepRunsTheInstructionAtPc := by
  unfold Obligations.StepRunsTheInstructionAtPc
  intro s i rest h _
  exact step_of_fetch (fetch_of_decode h)

/-- Settles O7: the fetch faults on a gap of the opcode map, and an instruction that was fetched raises a fault of the
table, never this one. -/
theorem stepFaultsOnUnassignedByte : Obligations.StepFaultsOnUnassignedByte := by
  unfold Obligations.StepFaultsOnUnassignedByte
  refine ⟨fun s => ?_, exec_ne_illegalInstruction⟩
  rw [← decodeBytes_eq_none_iff_listed _ 0]
  cases hfetch : s.fetch with
  | error f =>
    obtain ⟨hgap, rfl⟩ := fetch_error_iff.mp hfetch
    exact iff_of_true (step_of_fetch_error hfetch) hgap
  | ok i =>
    have hmap : decodeBytes (s.readRom s.pc) 0 ≠ none := fun hgap =>
      nomatch hfetch.symm.trans (fetch_error_iff.mpr ⟨hgap, rfl⟩)
    rw [step_of_fetch hfetch]
    exact iff_of_false (exec_ne_illegalInstruction i s _ _) hmap

end Sys2Proof.Machine

/-! ## What an instruction leaves alone (`spec/10_state.md` R10 to R28) -/

namespace Sys2Proof.Machine

variable {s t : State} {i : Instr}

/-! ### The two conditional jumps as updates of the state before -/

theorem exec_jcn (c : Cond) (a : Byte) (s : State) : exec (.jcn c a) s = .next { s with
    testInputs := if c.testPinZero then s.testInputs.tail else s.testInputs
    testDraws := if c.testPinZero then s.testDraws + 1 else s.testDraws
    pc := if Cond.take c s.acc s.cy s.testLevel then s.inPageOfNext 2 a else s.nextPc 2 } := by
  rw [show exec (.jcn c a) s = execJcn c a s from rfl, execJcn, branch_eq]
  cases c.testPinZero <;> rfl

theorem exec_isz (r : Reg) (a : Byte) (s : State) : exec (.isz r a) s = .next
    ((s.writeReg r (s.readReg r + 1)).setPc (if s.readReg r + 1 != 0 then s.inPageOfNext 2 a else s.nextPc 2)) := by
  rw [show exec (.isz r a) s = execIsz r a s from rfl, execIsz, branch_eq]
  rfl

/-! ### One statement for all fields -/

/-- What `t` still has of `s` after `i`: each field, unless `i` is on the spec's list of those that write it. RAM may
have ACC stored at the location selected. -/
structure Frame (i : Instr) (s t : State) : Prop where
  acc : i.writesAcc = false → t.acc = s.acc
  cy : i.writesCy = false → t.cy = s.cy
  x : writtenRegs i = [] → t.x = s.x
  pc : i.transfersControl = false → t.pc = s.nextPc (encode i).length
  bank : i ≠ .dcl → t.bank = s.bank
  srcaddr : i ≠ .dcl → (∀ p, i ≠ .src p) → t.srcaddr = s.srcaddr
  bankMap : t.bankMap = s.bankMap
  rom : t.rom = s.rom
  ram : t.ram = s.ram ∨ ∃ r loc, s.sel = .ok r ∧ storeLoc r i = some loc ∧ t.ram = s.ram.write loc s.acc
  ramPort : i ≠ .wmp → t.ramPort = s.ramPort
  romPort : i ≠ .wrr → t.romPort = s.romPort
  events : i ≠ .wmp → i ≠ .wrr → t.events = s.events
  testInput : (∀ c a, i = .jcn c a → c.testPinZero = false) →
    t.testInputs = s.testInputs ∧ t.testDraws = s.testDraws
  portInput : i ≠ .rdr → t.portInputs = s.portInputs ∧ t.portDraws = s.portDraws

/-- Every instruction keeps its frame: the state it answers is built from the old one by updates of the fields it is
listed for, behind its selection or the stack where it needs one. -/
theorem exec_frame (h : exec i s = .next t) : Frame i s t := by
  cases i with
  | jms a =>
    obtain ⟨-, rfl⟩ := execJms_next_iff.mp h
    constructor <;> simp [Instr.transfersControl]
  | bbl d =>
    obtain ⟨ret, rest, -, rfl⟩ := execBbl_next_iff.mp h
    constructor <;> simp [Instr.writesAcc, Instr.transfersControl]
  | jcn c a =>
    rw [exec_jcn] at h
    cases h
    constructor <;> simp +contextual [Instr.transfersControl]
  | isz r a =>
    rw [exec_isz] at h
    cases h
    constructor <;> simp [writtenRegs, Instr.transfersControl, State.writeReg]
  | wrm | wmp | wr0 | wr1 | wr2 | wr3 | sbm | rdm | adm | rd0 | rd1 | rd2 | rd3 =>
    obtain ⟨r, hsel, rfl⟩ := onSelected_next_iff.mp h
    constructor <;> simp [hsel, Instr.writesAcc, Instr.writesCy, encode, storeLoc, State.advance, State.nextPc,
      State.setSum, State.writeMain, State.writeStatus, State.ramPortOut]
  | wrr | rdr =>
    obtain ⟨k, -, rfl⟩ := onRomPort_next_iff.mp h
    constructor <;> simp [Instr.writesAcc, encode, State.advance, State.nextPc, State.romPortOut, State.afterPort]
  | _ =>
    cases h
    constructor <;> simp [Instr.writesAcc, Instr.writesCy, writtenRegs, Instr.transfersControl, encode, State.advance,
      State.nextPc, State.setSum, State.writeReg, State.writePair]

/-- Settles O13: the frame has ROM and BANK_MAP unconditionally, and a read of ROM sees nothing else. -/
theorem stepNeverChangesProgramMemory : Obligations.StepNeverChangesProgramMemory := by
  unfold Obligations.StepNeverChangesProgramMemory
  intro s t h
  obtain ⟨i, -, hexec⟩ := step_next_exec h
  have hrom := (exec_frame hexec).rom
  exact ⟨hrom, (exec_frame hexec).bankMap, fun a => congrArg (Memory.read · a.toNat) hrom⟩

/-- Settles O14, by the frame of ACC and CY. -/
theorem onlyListedInstructionsWriteAccAndCarry : Obligations.OnlyListedInstructionsWriteAccAndCarry := by
  unfold Obligations.OnlyListedInstructionsWriteAccAndCarry
  exact fun i s t h => ⟨(exec_frame h).acc, (exec_frame h).cy⟩

/-- Settles O16, by the frame of BANK and SRCADDR. -/
theorem onlyDclAndSrcWriteControlState : Obligations.OnlyDclAndSrcWriteControlState := by
  unfold Obligations.OnlyDclAndSrcWriteControlState
  exact fun i s t h => ⟨(exec_frame h).bank, (exec_frame h).srcaddr⟩

/-- `next(k)` as a number (R16). -/
theorem nextPc_toNat (s : State) (k : Nat) : (s.nextPc k).toNat = (s.pc.toNat + k) % 4096 := by
  simp [State.nextPc]

/-- Settles O21: the frame has `pc` at the address after the encoder's bytes. -/
theorem pcAdvancesByLengthUnlessTransfer : Obligations.PcAdvancesByLengthUnlessTransfer := by
  unfold Obligations.PcAdvancesByLengthUnlessTransfer
  intro i s t htransfer h
  rw [(exec_frame h).pc htransfer, nextPc_toNat]

/-! ### Index registers -/

theorem readReg_of_x_eq {r : Reg} (h : t.x = s.x) : t.readReg r = s.readReg r :=
  congrArg (fun x : Vector Nibble 16 => x[r]) h

@[simp] theorem readReg_setPc (s : State) (v : Addr) (r : Reg) : (s.setPc v).readReg r = s.readReg r := rfl

@[simp] theorem readReg_setCy (s : State) (v : Bit) (r : Reg) : (s.setCy v).readReg r = s.readReg r := rfl

/-- Everything an instruction can do to the index registers: leave them, write one, or write a pair. -/
theorem exec_x_cases (h : exec i s = .next t) : t.x = s.x ∨
    (∃ r v, writtenRegs i = [r] ∧ t.x = (s.writeReg r v).x) ∨
    (∃ p v, writtenRegs i = [evenReg p, oddReg p] ∧ t.x = (s.writePair p v).x) := by
  cases i with
  | xch r | inc r => cases h; exact .inr (.inl ⟨r, _, rfl, rfl⟩)
  | isz r a =>
    rw [exec_isz] at h
    cases h
    exact .inr (.inl ⟨r, _, rfl, rfl⟩)
  | fim p d | fin p => cases h; exact .inr (.inr ⟨p, _, rfl, rfl⟩)
  | _ => exact .inl ((exec_frame h).x rfl)

/-- Settles O17: a register outside the list is not the one written, nor one of the pair written. -/
theorem onlyNamedRegistersChange : Obligations.OnlyNamedRegistersChange := by
  unfold Obligations.OnlyNamedRegistersChange
  intro i s t q h hq
  obtain hx | ⟨r, v, hw, hx⟩ | ⟨p, v, hw, hx⟩ := exec_x_cases h
  · exact readReg_of_x_eq hx
  · rw [hw, List.mem_singleton] at hq
    rw [readReg_of_x_eq hx, readReg_writeReg_other v hq]
  · rw [hw, List.mem_pair, not_or] at hq
    rw [readReg_of_x_eq hx, readReg_writePair_other v hq.1 hq.2]

/-! ### RAM, and the invariant -/

/-- Settles O18: the only write the frame allows is at the location selected, and a write leaves every other location
alone. -/
theorem ramChangesOnlyAtStoreAddress : Obligations.RamChangesOnlyAtStoreAddress := by
  unfold Obligations.RamChangesOnlyAtStoreAddress
  intro i s t loc ⟨_, _, hwf⟩ h hloc
  obtain hram | ⟨r, stored, hsel, hstore, hram⟩ := (exec_frame h).ram
  · rw [hram]
  · have hne : loc ≠ stored := fun e => hloc r hsel (e ▸ hstore)
    rw [hram, Memory.read_write_other hwf hne]

/-- A store stays within RAM. -/
theorem storeLoc_lt {r : RamSelection} {loc : Nat} (h : storeLoc r i = some loc) : loc < Config.ramSize := by
  have hmain : mainLoc r.b r.a < Config.ramSize := Nat.lt_trans (mainLoc_lt r.b r.a) (by decide)
  have hstatus : ∀ n, statusLoc r.b r.g n < Config.ramSize := fun n => (statusLoc_range r.b r.g n).2
  cases i with
  | wrm => cases h; exact hmain
  | wr0 | wr1 | wr2 | wr3 => cases h; exact hstatus _
  | _ => cases h

/-- Every instruction keeps the invariant: the stack by what can happen to it, ROM by its frame, RAM because a write
within the size keeps the canonical form. -/
theorem exec_keeps_inv (hinv : s.Inv) (h : exec i s = .next t) : t.Inv := by
  have hstk := (onlyCallAndReturnTouchStack i s t hinv h).1
  obtain ⟨-, hrom, hram⟩ := hinv
  refine ⟨hstk, (exec_frame h).rom ▸ hrom, ?_⟩
  obtain hkeep | ⟨r, loc, -, hstore, hwrite⟩ := (exec_frame h).ram
  · rwa [hkeep]
  · rw [hwrite]
    exact Memory.write_wf hram (storeLoc_lt hstore)

/-- Settles O12: a step that goes on runs an instruction, and every instruction keeps the invariant. -/
theorem stepKeepsInvariant : Obligations.StepKeepsInvariant := by
  unfold Obligations.StepKeepsInvariant
  intro s t hinv h
  obtain ⟨i, -, hexec⟩ := step_next_exec h
  exact exec_keeps_inv hinv hexec

theorem launch_inv {p : Launch} (h : p.Valid) : (State.launch p).Inv := ⟨Nat.zero_le _, h⟩

/-- Settles O11: a launch stacks nothing and takes its memories from the parameters; the empty launch is valid. -/
theorem invariantHoldsAfterReset : Obligations.InvariantHoldsAfterReset := by
  unfold Obligations.InvariantHoldsAfterReset
  exact ⟨fun p => launch_inv, launch_inv ⟨rfl, rfl⟩⟩

/-! ### Outputs and inputs -/

/-- Settles O19: WMP and WRR answer by a port output on their selection, which adds one event; for the others by the
frame. -/
theorem outputsOnlyFromPortWrites : Obligations.OutputsOnlyFromPortWrites := by
  unfold Obligations.OutputsOnlyFromPortWrites
  intro i s t h
  refine ⟨?_, ?_, fun hwmp hwrr =>
    ⟨(exec_frame h).ramPort hwmp, (exec_frame h).romPort hwrr, (exec_frame h).events hwmp hwrr⟩⟩
  · rintro rfl
    obtain ⟨r, hsel, rfl⟩ := onSelected_next_iff.mp h
    exact ⟨rfl, r, hsel, rfl⟩
  · rintro rfl
    obtain ⟨k, hrsel, rfl⟩ := onRomPort_next_iff.mp h
    exact ⟨rfl, k, hrsel, rfl⟩

/-- JCN with bit 3 of its condition set draws the test pin once. -/
theorem exec_jcn_draws {c : Cond} {a : Byte} (hc : c.testPinZero = true) (h : exec (.jcn c a) s = .next t) :
    t.testInputs = s.testInputs.tail ∧ t.testDraws = s.testDraws + 1 := by
  rw [exec_jcn] at h
  cases h
  exact ⟨if_pos hc, if_pos hc⟩

theorem exec_rdr_draws (h : exec .rdr s = .next t) :
    t.portInputs = s.portInputs.tail ∧ t.portDraws = s.portDraws + 1 := by
  obtain ⟨k, -, rfl⟩ := onRomPort_next_iff.mp h
  exact ⟨rfl, rfl⟩

/-- Settles O20: the draw of JCN, the draw of RDR, and for the others the frame. -/
theorem inputsDrawnOnlyWhenAsked : Obligations.InputsDrawnOnlyWhenAsked := by
  unfold Obligations.InputsDrawnOnlyWhenAsked
  intro i s t h
  refine ⟨?_, fun hno => (exec_frame h).testInput fun c a hi => ?_, ?_, (exec_frame h).portInput⟩
  · rintro ⟨c, a, rfl, hc⟩
    exact exec_jcn_draws hc h
  · exact Bool.eq_false_iff.mpr fun hc => hno ⟨c, a, hi, hc⟩
  · rintro rfl
    exact exec_rdr_draws h

/-! ### What no instruction reads -/

/-- Settles O22: no update of an instruction other than JMS and BBL reads the stack, nor do the selections. -/
theorem stackIsInvisibleToOtherInstructions : Obligations.StackIsInvisibleToOtherInstructions := by
  unfold Obligations.StackIsInvisibleToOtherInstructions
  intro i s t k hjms hbbl h
  cases i with
  | jms a => exact absurd rfl (hjms a)
  | bbl d => exact absurd rfl (hbbl d)
  | jcn c a =>
    rw [exec_jcn] at h ⊢
    cases h
    rfl
  | wrm | wmp | wr0 | wr1 | wr2 | wr3 | sbm | rdm | adm | rd0 | rd1 | rd2 | rd3 =>
    obtain ⟨r, hsel, rfl⟩ := onSelected_next_iff.mp h
    exact onSelected_next_iff.mpr ⟨r, hsel, rfl⟩
  | wrr | rdr =>
    obtain ⟨p, hrsel, rfl⟩ := onRomPort_next_iff.mp h
    exact onRomPort_next_iff.mpr ⟨p, hrsel, rfl⟩
  | isz r a =>
    rw [exec_isz] at h ⊢
    cases h
    rfl
  | _ =>
    cases h
    rfl

/-- Settles O23: the other latches and events enter no update but the output of WMP and WRR, which sets and appends
without reading. -/
theorem outputsAreNeverReadBack : Obligations.OutputsAreNeverReadBack := by
  unfold Obligations.OutputsAreNeverReadBack
  intro i s t p q e h
  cases i with
  | jms a =>
    obtain ⟨hroom, rfl⟩ := execJms_next_iff.mp h
    exact ⟨_, execJms_next_iff.mpr ⟨hroom, rfl⟩, rfl⟩
  | bbl d =>
    obtain ⟨ret, rest, hstk, rfl⟩ := execBbl_next_iff.mp h
    exact ⟨_, execBbl_next_iff.mpr ⟨ret, rest, hstk, rfl⟩, rfl⟩
  | wrm | wmp | wr0 | wr1 | wr2 | wr3 | sbm | rdm | adm | rd0 | rd1 | rd2 | rd3 =>
    obtain ⟨r, hsel, rfl⟩ := onSelected_next_iff.mp h
    exact ⟨_, onSelected_next_iff.mpr ⟨r, hsel, rfl⟩, rfl⟩
  | wrr | rdr =>
    obtain ⟨k, hrsel, rfl⟩ := onRomPort_next_iff.mp h
    exact ⟨_, onRomPort_next_iff.mpr ⟨k, hrsel, rfl⟩, rfl⟩
  | jcn c a =>
    rw [exec_jcn] at h
    cases h
    exact ⟨_, exec_jcn c a _, rfl⟩
  | isz r a =>
    rw [exec_isz] at h
    cases h
    exact ⟨_, exec_isz r a _, rfl⟩
  | _ =>
    cases h
    exact ⟨_, rfl, rfl⟩

end Sys2Proof.Machine

/-! ## Arithmetic and rotation (`spec/41_arithmetic.md`, `spec/43_rotate.md`) -/

namespace Sys2Proof.Machine

variable {s : State}

/-! ### The two digits of a sum -/

theorem Sum5.carry_result_toNat (v : Sum5) : 16 * v.carry.toNat + v.result.toNat = v.toNat := by
  rw [Nat.add_comm, Sum5.digits]

@[simp] theorem Sum5.result_append (c : Bit) (a : Nibble) : Sum5.result (c ++ a) = a := by
  revert c a
  decide

@[simp] theorem Sum5.carry_append (c : Bit) (a : Nibble) : Sum5.carry (c ++ a) = c := by
  revert c a
  decide

theorem addSum_digits (a m : Nibble) (cy : Bit) :
    16 * (addSum a m cy).carry.toNat + (addSum a m cy).result.toNat = a.toNat + m.toNat + cy.toNat := by
  rw [Sum5.carry_result_toNat, addSum_toNat]

/-- The difference with borrow: a carry out says that nothing was borrowed (D13). -/
theorem subSum_digits (a m : Nibble) (cy : Bit) :
    16 * (subSum a m cy).carry.toNat + (subSum a m cy).result.toNat + m.toNat + cy.toNat = a.toNat + 16 := by
  have := m.isLt; have := cy.isLt
  rw [Sum5.carry_result_toNat, subSum_toNat]
  omega

theorem incSum_digits (a : Nibble) :
    16 * (incSum a).carry.toNat + (incSum a).result.toNat = a.toNat + 1 := by
  rw [Sum5.carry_result_toNat, incSum_toNat]

theorem decSum_digits (a : Nibble) :
    16 * (decSum a).carry.toNat + (decSum a).result.toNat = a.toNat + 15 := by
  rw [Sum5.carry_result_toNat, decSum_toNat]

/-! ### Instructions on a selection -/

theorem onSelected_of_selection {addr : Byte} {b : Fin 4} (haddr : s.srcaddr = some addr)
    (hbank : s.selectedBank = some b) (k : RamSelection → State) : s.onSelected k = .next (k (selectionAt b addr)) :=
  onSelected_next_iff.mpr ⟨_, sel_ok_iff.mpr ⟨addr, b, haddr, hbank, rfl⟩, rfl⟩

theorem onRomPort_of_srcaddr {addr : Byte} (haddr : s.srcaddr = some addr) (k : Nibble → State) :
    s.onRomPort k = .next (k (addr.extractLsb' 4 4)) :=
  onRomPort_next_iff.mpr ⟨_, rsel_ok_iff.mpr ⟨addr, haddr, rfl⟩, rfl⟩

/-! ### Addition and subtraction -/

/-- What an instruction leaves that ends in a sum (R110 to R116). -/
abbrev State.afterSum (s : State) (v : Sum5) : State := { s with acc := v.result, cy := v.carry, pc := s.pc + 1 }

theorem exec_add (r : Reg) (s : State) :
    exec (.add r) s = .next (s.afterSum (addSum s.acc (s.readReg r) s.cy)) := rfl

theorem exec_sub (r : Reg) (s : State) :
    exec (.sub r) s = .next (s.afterSum (subSum s.acc (s.readReg r) s.cy)) := rfl

theorem exec_adm {addr : Byte} {b : Fin 4} (haddr : s.srcaddr = some addr) (hbank : s.selectedBank = some b) :
    exec .adm s = .next (s.afterSum (addSum s.acc (s.readMain b addr) s.cy)) := onSelected_of_selection haddr hbank _

theorem exec_sbm {addr : Byte} {b : Fin 4} (haddr : s.srcaddr = some addr) (hbank : s.selectedBank = some b) :
    exec .sbm s = .next (s.afterSum (subSum s.acc (s.readMain b addr) s.cy)) := onSelected_of_selection haddr hbank _

/-- Settles O25, by the digits of the sum of each. -/
theorem addAndAdmAddOperandAndCarry : Obligations.AddAndAdmAddOperandAndCarry := by
  unfold Obligations.AddAndAdmAddOperandAndCarry
  exact ⟨fun s r => ⟨_, exec_add r s, rfl, addSum_digits _ _ _⟩,
    fun s addr b haddr hbank => ⟨_, exec_adm haddr hbank, rfl, addSum_digits _ _ _⟩⟩

/-- Settles O26, by the digits of the difference of each. -/
theorem subAndSbmSubtractWithBorrow : Obligations.SubAndSbmSubtractWithBorrow := by
  unfold Obligations.SubAndSbmSubtractWithBorrow
  exact ⟨fun s r => ⟨_, exec_sub r s, rfl, subSum_digits _ _ _⟩,
    fun s addr b haddr hbank => ⟨_, exec_sbm haddr hbank, rfl, subSum_digits _ _ _⟩⟩

/-! ### Counting by one -/

theorem exec_inc (r : Reg) (s : State) : exec (.inc r) s = .next
    (((s.writeReg r (incSum (s.readReg r)).result).setCy (incSum (s.readReg r)).carry).setPc (s.pc + 1)) := rfl

theorem exec_iac (s : State) : exec .iac s = .next (s.afterSum (incSum s.acc)) := rfl

theorem exec_dac (s : State) : exec .dac s = .next (s.afterSum (decSum s.acc)) := rfl

/-- Settles O27, by the digits of each sum; DAC adds 15, which carries unless ACC is 0. -/
theorem incIacDacCountByOne : Obligations.IncIacDacCountByOne := by
  unfold Obligations.IncIacDacCountByOne
  refine ⟨fun s r => ⟨_, exec_inc r s, rfl, ?_, fun q hq => ?_⟩, fun s => ⟨_, exec_iac s, rfl, incSum_digits s.acc⟩,
    fun s => ⟨_, exec_dac s, rfl, ?_, ?_⟩⟩
  · rw [readReg_setPc, readReg_setCy, readReg_writeReg_same]
    exact incSum_digits (s.readReg r)
  · exact readReg_writeReg_other _ hq
  all_goals
    have hdigits := decSum_digits s.acc
    dsimp only
    bv_omega

/-! ### Decimal adjustment -/

theorem exec_daa (s : State) : exec .daa s = .next (s.afterSum (daaSum s.acc s.cy)) := rfl

/-- The adjustment adds six and keeps a carry that was set. -/
theorem daaSum_of_needed {a : Nibble} {cy : Bit} (h : 9 < a.toNat ∨ cy = 1) :
    (daaSum a cy).result.toNat = (a.toNat + 6) % 16 ∧
      ((daaSum a cy).carry = 1 ↔ cy = 1 ∨ 16 ≤ a.toNat + 6) := by
  revert a cy
  decide

theorem daaSum_of_not_needed {a : Nibble} {cy : Bit} (h : ¬ (9 < a.toNat ∨ cy = 1)) : daaSum a cy = cy ++ a :=
  if_neg h

/-- Settles O28, by the sum of the adjustment where it is needed and where it is not. -/
theorem daaAddsSixWhereNeeded : Obligations.DaaAddsSixWhereNeeded := by
  unfold Obligations.DaaAddsSixWhereNeeded
  intro s
  refine ⟨_, exec_daa s, rfl, daaSum_of_needed, fun h => ?_⟩
  simp [daaSum_of_not_needed h]

/-- Settles O29: the sum is at most 19; from 10 on the adjustment is needed, and it moves 10 of it into the carry. -/
theorem addThenDaaAddsDecimalDigits : Obligations.AddThenDaaAddsDecimalDigits := by
  unfold Obligations.AddThenDaaAddsDecimalDigits
  intro s r hacc hreg
  have hsum := addSum_digits s.acc (s.readReg r) s.cy
  have hcy := s.cy.isLt
  rw [execSeq_cons_of_next (exec_add r s), execSeq_singleton, exec_daa]
  refine ⟨_, rfl, ?_⟩
  dsimp only
  generalize (addSum s.acc (s.readReg r) s.cy).result = u at *
  generalize (addSum s.acc (s.readReg r) s.cy).carry = c at *
  by_cases h : 9 < u.toNat ∨ c = 1
  · obtain ⟨hresult, hcarry⟩ := daaSum_of_needed h
    have hone : (daaSum u c).carry = 1 := by bv_omega
    rw [hresult, hone]
    bv_omega
  · rw [daaSum_of_not_needed h, Sum5.result_append, Sum5.carry_append]
    bv_omega

/-- The two differences: CMC turns the carry of the low one into the borrow of the high one, and the register that takes
the low one is none that the high one reads. -/
theorem execSeq_sub_cmc_sub {hi lo hi' lo' : Reg} {low high : Sum5} (hne : lo ≠ hi) (hne' : lo ≠ hi')
    (hlow : low = subSum (s.readReg lo) (s.readReg lo') s.cy)
    (hhigh : high = subSum (s.readReg hi) (s.readReg hi') (~~~low.carry)) :
    ∃ t, execSeq [.ld lo, .sub lo', .xch lo, .cmc, .ld hi, .sub hi'] s = .next t ∧
      t.acc = high.result ∧ t.cy = high.carry ∧ t.readReg lo = low.result := by
  rw [← readReg_writeReg_other low.result hne.symm, ← readReg_writeReg_other low.result hne'.symm] at hhigh
  subst hhigh hlow
  rw [execSeq_cons_of_next (exec_ld lo s), execSeq_cons_of_next (exec_sub lo' _), execSeq_cons_of_next (exec_xch lo _),
    execSeq_cons_of_next (exec_cmc _), execSeq_cons_of_next (exec_ld hi _), execSeq_singleton, exec_sub]
  exact ⟨_, rfl, rfl, rfl, readReg_writeReg_same lo _⟩

/-- Settles O30: each difference is exact in its own digit, and the borrow between them is 1 less the carry. -/
theorem subCmcSubSubtractsTwoDigits : Obligations.SubCmcSubSubtractsTwoDigits := by
  unfold Obligations.SubCmcSubSubtractsTwoDigits
  intro s hi lo hi' lo' hcy hne hne'
  have hlow := subSum_digits (s.readReg lo) (s.readReg lo') s.cy
  generalize hlowdef : subSum (s.readReg lo) (s.readReg lo') s.cy = low at hlow
  have hhigh := subSum_digits (s.readReg hi) (s.readReg hi') (~~~low.carry)
  obtain ⟨t, hrun, hacc, hcarry, hreg⟩ := execSeq_sub_cmc_sub hne hne' hlowdef.symm rfl
  have hborrow : (~~~low.carry).toNat + low.carry.toNat = 1 := by bv_omega
  have hnone : s.cy.toNat = 0 := by simp [hcy]
  refine ⟨t, hrun, ?_⟩
  rw [hacc, hcarry, hreg]
  omega

/-! ### Rotation of the five bits CY : ACC -/

theorem exec_ral (s : State) : exec .ral s = .next (s.afterSum (ralSum s.acc s.cy)) := rfl

theorem exec_rar (s : State) : exec .rar s = .next (s.afterSum (rarSum s.acc s.cy)) := rfl

theorem ralSum_result (a : Nibble) (cy : Bit) : (ralSum a cy).result = a.extractLsb' 0 3 ++ cy :=
  Sum5.result_append _ _

theorem ralSum_carry (a : Nibble) (cy : Bit) : (ralSum a cy).carry = a.extractLsb' 3 1 := Sum5.carry_append _ _

theorem rarSum_result (a : Nibble) (cy : Bit) : (rarSum a cy).result = cy ++ a.extractLsb' 1 3 :=
  Sum5.result_append _ _

theorem rarSum_carry (a : Nibble) (cy : Bit) : (rarSum a cy).carry = a.extractLsb' 0 1 := Sum5.carry_append _ _

theorem ralSum_result_getLsbD (a : Nibble) (cy : Bit) (k : Nat) : (ralSum a cy).result.getLsbD k =
    if k < 1 then cy.getLsbD k else (a.extractLsb' 0 3).getLsbD (k - 1) := by
  rw [ralSum_result]
  exact BitVec.getLsbD_append

theorem rarSum_result_getLsbD (a : Nibble) (cy : Bit) (k : Nat) : (rarSum a cy).result.getLsbD k =
    if k < 3 then (a.extractLsb' 1 3).getLsbD k else cy.getLsbD (k - 3) := by
  rw [rarSum_result]
  exact BitVec.getLsbD_append

/-- Settles O33: result and carry of each rotation are pieces of ACC and CY put together, read bit by bit. -/
theorem rotatesMoveEachBitThroughCarry : Obligations.RotatesMoveEachBitThroughCarry := by
  unfold Obligations.RotatesMoveEachBitThroughCarry
  refine ⟨fun s => ⟨_, exec_ral s, rfl, ?_, ?_, fun k hk => ?_⟩, fun s => ⟨_, exec_rar s, rfl, ?_, ?_, fun k hk => ?_⟩⟩
  · simp [ralSum_carry]
  · rw [ralSum_result_getLsbD]; rfl
  · simp [ralSum_result_getLsbD, hk]
  · simp [rarSum_carry]
  · rw [rarSum_result_getLsbD]; rfl
  · simp [rarSum_result_getLsbD, hk, Nat.add_comm]

theorem ralSum_digits (w : Sum5) : ralSum w.result w.carry = w.rotateLeft 1 := by
  revert w
  decide

theorem rarSum_digits (w : Sum5) : rarSum w.result w.carry = w.rotateRight 1 := by
  revert w
  decide

/-- RAL on a state whose CY : ACC is a given word: the word is rotated. -/
theorem exec_ral_setSum (s : State) (w : Sum5) (a : Addr) :
    exec .ral ((s.setSum w).setPc a) = .next ((s.setSum (w.rotateLeft 1)).setPc (a + 1)) := by
  rw [← ralSum_digits]
  rfl

theorem exec_rar_setSum (s : State) (w : Sum5) (a : Addr) :
    exec .rar ((s.setSum w).setPc a) = .next ((s.setSum (w.rotateRight 1)).setPc (a + 1)) := by
  rw [← rarSum_digits]
  rfl

theorem rotateRight_rotateLeft (w : Sum5) : (w.rotateLeft 1).rotateRight 1 = w := by
  revert w
  decide

theorem rotateLeft_rotateRight (w : Sum5) : (w.rotateRight 1).rotateLeft 1 = w := by
  revert w
  decide

theorem rotateLeft_five (w : Sum5) :
    ((((w.rotateLeft 1).rotateLeft 1).rotateLeft 1).rotateLeft 1).rotateLeft 1 = w := by
  revert w
  decide

theorem rotateRight_five (w : Sum5) :
    ((((w.rotateRight 1).rotateRight 1).rotateRight 1).rotateRight 1).rotateRight 1 = w := by
  revert w
  decide

/-- A state is itself with its own CY : ACC. -/
theorem setSum_self (s : State) : s.setSum (s.cy ++ s.acc) = s := by
  rw [State.setSum_eq, Sum5.result_append, Sum5.carry_append]

/-- The rotations on a state whose CY : ACC is a given word. -/
theorem execSeq_rotates (s : State) (w : Sum5) (a : Addr) :
    execSeq [.ral, .rar] ((s.setSum w).setPc a) = .next ((s.setSum w).setPc (a + 2)) ∧
    execSeq [.rar, .ral] ((s.setSum w).setPc a) = .next ((s.setSum w).setPc (a + 2)) ∧
    execSeq [.ral, .ral, .ral, .ral, .ral] ((s.setSum w).setPc a) = .next ((s.setSum w).setPc (a + 5)) ∧
    execSeq [.rar, .rar, .rar, .rar, .rar] ((s.setSum w).setPc a) = .next ((s.setSum w).setPc (a + 5)) := by
  have htwo : a + 1 + 1 = a + 2 := BitVec.add_assoc a 1 1
  have hfive : a + 2 + 1 + 1 + 1 = a + 5 := by simp only [BitVec.add_assoc]; rfl
  simp only [execSeq, exec_ral_setSum, exec_rar_setSum, rotateRight_rotateLeft, rotateLeft_rotateRight, rotateLeft_five,
    rotateRight_five, htwo, hfive, and_self]

/-- Settles O34: each sequence rotates the five-bit word CY : ACC by one place there and back, or by five. -/
theorem rotatesAreInverseWithPeriodFive : Obligations.RotatesAreInverseWithPeriodFive := by
  unfold Obligations.RotatesAreInverseWithPeriodFive
  intro s
  have hrotates := execSeq_rotates s (s.cy ++ s.acc) s.pc
  rw [setSum_self] at hrotates
  exact hrotates

/-! ### TCS -/

theorem exec_tcs (s : State) :
    exec .tcs s = .next { s with acc := 9 + s.cy.setWidth 4, cy := 0, pc := s.pc + 1 } := rfl

/-- Settles O37: 9 and a carry of at most 1 stay below 16. -/
theorem tcsGivesNinePlusCarry : Obligations.TcsGivesNinePlusCarry := by
  unfold Obligations.TcsGivesNinePlusCarry
  refine fun s => ⟨_, exec_tcs s, rfl, ?_⟩
  have hcy := s.cy.isLt
  have hwide := carry_setWidth_toNat s.cy
  dsimp only
  bv_omega

end Sys2Proof.Machine

/-! ## Register pairs (`spec/45_register_pair.md`) -/

namespace Sys2Proof.Machine

variable {s : State}

/-! ### A pair and its two registers (R13) -/

theorem eq_evenReg {p : RegPair} {q : Reg} (h : q.val = 2 * p.val) : q = evenReg p := Fin.ext h

theorem eq_oddReg {p : RegPair} {q : Reg} (h : q.val = 2 * p.val + 1) : q = oddReg p := Fin.ext h

theorem readReg_writePair_even (s : State) (p : RegPair) (v : Byte) :
    (s.writePair p v).readReg (evenReg p) = highNibble v := by
  rw [State.writePair, readReg_writeReg_other _ (evenReg_ne_oddReg p), readReg_writeReg_same]

theorem readReg_writePair_odd (s : State) (p : RegPair) (v : Byte) :
    (s.writePair p v).readReg (oddReg p) = lowNibble v := by
  rw [State.writePair, readReg_writeReg_same]

/-- Every register after a pair was written, by its number. -/
theorem readReg_writePair (s : State) (p : RegPair) (v : Byte) :
    (∀ q : Reg, q.val = 2 * p.val → ((s.writePair p v).readReg q).toNat = v.toNat / 16) ∧
    (∀ q : Reg, q.val = 2 * p.val + 1 → ((s.writePair p v).readReg q).toNat = v.toNat % 16) ∧
    ∀ q : Reg, q.val ≠ 2 * p.val → q.val ≠ 2 * p.val + 1 → (s.writePair p v).readReg q = s.readReg q := by
  refine ⟨fun q hq => ?_, fun q hq => ?_, fun q heven hodd => ?_⟩
  · rw [eq_evenReg hq, readReg_writePair_even, highNibble_toNat]
  · rw [eq_oddReg hq, readReg_writePair_odd, lowNibble_toNat]
  · exact readReg_writePair_other v (fun e => heven (congrArg Fin.val e)) (fun e => hodd (congrArg Fin.val e))

theorem readPair_toNat {p : RegPair} {h l : Reg} (hh : h.val = 2 * p.val) (hl : l.val = 2 * p.val + 1) (s : State) :
    (s.readPair p).toNat = 16 * (s.readReg h).toNat + (s.readReg l).toNat := by
  rw [eq_evenReg hh, eq_oddReg hl]
  exact joinNibbles_toNat _ _

/-! ### The four instructions -/

theorem exec_fim (p : RegPair) (d : Byte) (s : State) :
    exec (.fim p d) s = .next { s with x := (s.writePair p d).x, pc := s.pc + 2 } := rfl

theorem exec_src (p : RegPair) (s : State) :
    exec (.src p) s = .next { s with srcaddr := some (s.readPair p), pc := s.pc + 1 } := rfl

theorem exec_fin (p : RegPair) (s : State) :
    exec (.fin p) s = .next { s with x := (s.writePair p (s.readRom s.finAddr)).x, pc := s.pc + 1 } := rfl

theorem exec_jin (p : RegPair) (s : State) :
    exec (.jin p) s = .next { s with pc := s.inPageOfNext 1 (s.readPair p) } := rfl

/-- Settles O38: FIM writes its pair, and the pair reads back nibble by nibble. -/
theorem fimWritesPairHighNibbleFirst : Obligations.FimWritesPairHighNibbleFirst := by
  unfold Obligations.FimWritesPairHighNibbleFirst
  exact fun s p d => ⟨_, exec_fim p d s, rfl, readReg_writePair s p d⟩

/-- Settles O39: SRC latches the pair, whose value is that of its two registers. -/
theorem srcLatchesPairAsAddress : Obligations.SrcLatchesPairAsAddress := by
  unfold Obligations.SrcLatchesPairAsAddress
  exact fun s p h l hh hl => ⟨s.readPair p, readPair_toNat hh hl s, exec_src p s⟩

theorem finAddr_toNat (s : State) : s.finAddr.toNat =
    256 * ((s.pc.toNat + 1) % 4096 / 256) + 16 * (s.readReg 0).toNat + (s.readReg 1).toNat := by
  rw [State.finAddr, inPageOfNext_toNat, readPair_toNat (h := 0) (l := 1) rfl rfl, Nat.add_assoc]

/-- Settles O40: FIN writes its pair with the byte at the address that pair 0 gives. -/
theorem finReadsRomThroughPairZero : Obligations.FinReadsRomThroughPairZero := by
  unfold Obligations.FinReadsRomThroughPairZero
  exact fun s p => ⟨_, s.finAddr, exec_fin p s, finAddr_toNat s, rfl, readReg_writePair s p _⟩

/-- Settles O41: JIN completes the pair's value by the page of the following instruction. -/
theorem jinJumpsWithinPageOfNext : Obligations.JinJumpsWithinPageOfNext := by
  unfold Obligations.JinJumpsWithinPageOfNext
  intro s p h l hh hl
  refine ⟨_, ?_, exec_jin p s⟩
  rw [inPageOfNext_toNat, readPair_toNat hh hl, Nat.add_assoc]

end Sys2Proof.Machine

/-! ## Calls, returns and conditional jumps (`spec/46_jump_branch.md`) -/

namespace Sys2Proof.Machine

variable {s : State}

/-! ### Calls and returns -/

theorem exec_jms_of_room (a : Addr) (h : s.stk.length < 3) :
    exec (.jms a) s = .next { s with stk := (s.pc + 2) :: s.stk, pc := a } := execJms_next_iff.mpr ⟨h, rfl⟩

theorem exec_jms_of_full (a : Addr) (h : s.stk.length = 3) : exec (.jms a) s = .fault (.stackOverflow s.pc) :=
  execJms_fault_iff.mpr ⟨ge_of_eq h, rfl⟩

theorem exec_bbl_of_cons (d : Nibble) {ret : Addr} {rest : List Addr} (h : s.stk = ret :: rest) :
    exec (.bbl d) s = .next { s with stk := rest, acc := d, pc := ret } := execBbl_next_iff.mpr ⟨ret, rest, h, rfl⟩

theorem exec_bbl_of_nil (d : Nibble) (h : s.stk = []) : exec (.bbl d) s = .fault (.stackUnderflow s.pc) :=
  execBbl_fault_iff.mpr ⟨h, rfl⟩

/-- Settles O43, by the four cases of the stack. -/
theorem jmsPushesAndBblPops : Obligations.JmsPushesAndBblPops := by
  unfold Obligations.JmsPushesAndBblPops
  exact ⟨fun s a => ⟨exec_jms_of_room a, exec_jms_of_full a⟩,
    fun s d => ⟨fun ret rest => exec_bbl_of_cons d, exec_bbl_of_nil d⟩⟩

theorem execSeq_three_jms (a b c : Addr) (h : s.stk = []) :
    execSeq [.jms a, .jms b, .jms c] s = .next { s with stk := [b + 2, a + 2, s.pc + 2], pc := c } := by
  rw [execSeq_cons_of_next (exec_jms_of_room a (by simp [h])), execSeq_cons_of_next (exec_jms_of_room b (by simp [h])),
    execSeq_singleton, exec_jms_of_room c (by simp [h])]
  simp [h]

/-- Settles O44: the state after three calls, and from there the fourth call or the returns one by one. -/
theorem callsNestThreeDeepAndReturnInOrder : Obligations.CallsNestThreeDeepAndReturnInOrder := by
  unfold Obligations.CallsNestThreeDeepAndReturnInOrder
  intro s a b c d u v w hstk
  have hcalls := execSeq_three_jms a b c hstk
  have hthen (is : List Instr) : execSeq (.jms a :: .jms b :: .jms c :: is) s = _ :=
    execSeq_append_of_next (js := is) hcalls
  refine ⟨?_, hcalls, ?_, ?_, ?_⟩
  · rw [hthen, execSeq_singleton, exec_jms_of_full d rfl]
  · rw [hthen, execSeq_singleton, exec_bbl_of_cons u rfl]
  · rw [hthen, execSeq_cons_of_next (exec_bbl_of_cons u rfl), execSeq_singleton, exec_bbl_of_cons v rfl]
  · rw [hthen, execSeq_cons_of_next (exec_bbl_of_cons u rfl), execSeq_cons_of_next (exec_bbl_of_cons v rfl),
      execSeq_singleton, exec_bbl_of_cons w rfl]
    rw [hstk]

/-! ### JCN -/

theorem someTest_condOfField_iff (f acc : Nibble) (cy test : Bit) : Cond.someTest (condOfField f) acc cy test = true ↔
    (f.getLsbD 1 = true ∧ acc = 0) ∨ (f.getLsbD 2 = true ∧ cy = 1) ∨ (f.getLsbD 3 = true ∧ test = 0) := by
  simp [Cond.someTest, condOfField, or_assoc]

/-- The condition of R86: the selected tests by OR, inverted by bit 0. -/
theorem take_condOfField_iff (f acc : Nibble) (cy test : Bit) : Cond.take (condOfField f) acc cy test = true ↔
    ¬ (((f.getLsbD 1 = true ∧ acc = 0) ∨ (f.getLsbD 2 = true ∧ cy = 1) ∨ (f.getLsbD 3 = true ∧ test = 0)) ↔
      f.getLsbD 0 = true) := by
  rw [← someTest_condOfField_iff f acc cy test, Cond.take, Bool.xor_iff_ne, Ne, Bool.eq_iff_iff]
  rfl

/-- Settles O45: the condition decides between the two addresses, bit 3 of the field on the draw. -/
theorem jcnTakesConditionOfItsFieldBits : Obligations.JcnTakesConditionOfItsFieldBits := by
  unfold Obligations.JcnTakesConditionOfItsFieldBits
  intro s f a
  refine ⟨fun b bs => testLevel_of_queue, _, exec_jcn (condOfField f) a s, ?_, fun htake => ?_, fun hstay => ?_⟩
  · rw [show (condOfField f).testPinZero = f.getLsbD 3 from rfl]
    cases f.getLsbD 3 <;> rfl
  · have htake := (take_condOfField_iff f s.acc s.cy s.testLevel).mpr htake
    rw [if_pos htake, inPageOfNext_toNat]
  · have hstay := not_imp_not.mpr (take_condOfField_iff f s.acc s.cy s.testLevel).mp (not_not.mpr hstay)
    exact if_neg hstay

/-! ### ISZ -/

/-- Settles O46: the register written decides between the two addresses. -/
theorem iszIncrementsAndJumpsUnlessZero : Obligations.IszIncrementsAndJumpsUnlessZero := by
  unfold Obligations.IszIncrementsAndJumpsUnlessZero
  intro s r a
  refine ⟨_, exec_isz r a s, rfl, ?_⟩
  rw [readReg_setPc, readReg_writeReg_same, State.setPc_pc]
  refine ⟨BitVec.toNat_add _ _, fun q hq => readReg_writeReg_other _ hq, fun hne => ?_, fun hzero => ?_⟩
  · rw [if_pos (bne_iff_ne.mpr hne), inPageOfNext_toNat]
  · exact if_neg fun hne => bne_iff_ne.mp hne hzero

/-! ### The loop of an ISZ on itself -/

/-- A run of one step more is that step and the run from where it leads. -/
theorem run_succ_next_iff (M : Host.Core) {s t : M.State} {k : Nat} :
    M.run (k + 1) s = .next t ↔ ∃ u, M.step s = .next u ∧ M.run k u = .next t := by
  rw [Host.Core.run]
  cases M.step s <;> simp

theorem writeReg_writeReg (s : State) (r : Reg) (v w : Nibble) : (s.writeReg r v).writeReg r w = s.writeReg r w := by
  simp [State.writeReg, State.setX]

/-- Each pass adds one to the register, from `15 - n` on, and comes back to the same fetch until the register is 0. -/
theorem run_isz_on_itself {r : Reg} {a : Byte} (n : Nat) (s : State) (hcount : (s.readReg r).toNat + n = 15)
    (hfetch : s.fetch = .ok (.isz r a)) (htarget : s.inPageOfNext 2 a = s.pc) :
    Sys2Proof.core.run (n + 1) s = .next ((s.writeReg r 0).setPc (s.pc + 2)) := by
  induction n generalizing s with
  | zero =>
    have hstep := (step_of_fetch hfetch).trans (exec_isz r a s)
    have hlast : s.readReg r + 1 = 0 := by bv_omega
    rw [hlast] at hstep
    exact (run_succ_next_iff Sys2Proof.core).mpr ⟨_, hstep, rfl⟩
  | succ n ih =>
    have hstep := (step_of_fetch hfetch).trans (exec_isz r a s)
    have hmore : s.readReg r + 1 ≠ 0 := by bv_omega
    rw [if_pos (bne_iff_ne.mpr hmore), htarget] at hstep
    let u := (s.writeReg r (s.readReg r + 1)).setPc s.pc
    have hcount' : (u.readReg r).toNat + n = 15 := by
      rw [readReg_setPc, readReg_writeReg_same]
      bv_omega
    have hrest := ih u hcount' hfetch htarget
    rw [← writeReg_writeReg s r (s.readReg r + 1) 0]
    exact (run_succ_next_iff Sys2Proof.core).mpr ⟨u, hstep, hrest⟩

/-- Settles O47: from `k` the loop makes `15 - k` passes back to itself and one past it. -/
theorem iszLoopOnItselfCountsToZero : Obligations.IszLoopOnItselfCountsToZero := by
  unfold Obligations.IszLoopOnItselfCountsToZero
  intro s r b1 b2 h1 h2 hdecode hself
  have hfetch : s.fetch = .ok (.isz r b2) := by
    refine fetch_of_decode (rest := []) ?_
    rw [h1, show s.readRom (s.nextPc 1) = b2 from h2, hdecode]
  have htarget : s.inPageOfNext 2 b2 = s.pc := by
    refine BitVec.eq_of_toNat_eq ?_
    rw [inPageOfNext_toNat, ← hself]
  have hlt := (s.readReg r).isLt
  have hrun := run_isz_on_itself (15 - (s.readReg r).toNat) s (by omega) hfetch htarget
  rw [show 15 - (s.readReg r).toNat + 1 = 16 - (s.readReg r).toNat by omega] at hrun
  exact ⟨_, hrun, rfl, readReg_writeReg_same r 0, fun q hq => readReg_writeReg_other 0 hq⟩

end Sys2Proof.Machine

/-! ## RAM and ports (`spec/20_memory.md` R43, R46, `spec/47_ram_io.md`) -/

namespace Sys2Proof.Machine

variable {s : State} {addr : Byte} {b : Fin 4}

/-! ### The flat numbering of RAM (R43) -/

theorem mainLoc_inj {b b' : Fin 4} {a a' : Byte} (h : mainLoc b a = mainLoc b' a') : b = b' ∧ a = a' := by
  have := a.isLt; have := a'.isLt
  unfold mainLoc at h
  exact ⟨Fin.ext (by omega), BitVec.eq_of_toNat_eq (by omega)⟩

theorem statusLoc_inj {b b' : Fin 4} {g g' : Nibble} {n n' : Fin 4} (h : statusLoc b g n = statusLoc b' g' n') :
    b = b' ∧ g = g' ∧ n = n' := by
  have := g.isLt; have := g'.isLt; have := n.isLt; have := n'.isLt
  unfold statusLoc at h
  exact ⟨Fin.ext (by omega), BitVec.eq_of_toNat_eq (by omega), Fin.ext (by omega)⟩

theorem mainLoc_ne_statusLoc (b b' : Fin 4) (a : Byte) (g : Nibble) (n : Fin 4) : mainLoc b a ≠ statusLoc b' g n :=
  Nat.ne_of_lt (Nat.lt_of_lt_of_le (mainLoc_lt b a) (statusLoc_range b' g n).1)

/-- The bank and the address of a main location. -/
theorem exists_mainLoc {loc : Nat} (h : loc < 1024) : ∃ b a, loc = mainLoc b a := by
  refine ⟨⟨loc / 256, by omega⟩, BitVec.ofNat 8 (loc % 256), ?_⟩
  simp only [mainLoc, BitVec.toNat_ofNat]
  omega

/-- The bank, the RAM register and the digit of a status location. -/
theorem exists_statusLoc {loc : Nat} (hlo : 1024 ≤ loc) (hhi : loc < 1280) : ∃ b g n, loc = statusLoc b g n := by
  refine ⟨⟨(loc - 1024) / 64, by omega⟩, BitVec.ofNat 4 (loc % 64 / 4), ⟨loc % 4, by omega⟩, ?_⟩
  simp only [statusLoc, BitVec.toNat_ofNat]
  omega

/-- Settles O52: both numberings are injective, their ranges meet at 1024, and each location is taken apart again. -/
theorem ramLocationsNumberEveryCharacterOnce : Obligations.RamLocationsNumberEveryCharacterOnce := by
  unfold Obligations.RamLocationsNumberEveryCharacterOnce
  refine ⟨fun _ _ _ _ => mainLoc_inj, fun _ _ _ _ _ _ => statusLoc_inj, mainLoc_ne_statusLoc,
    fun loc => ⟨fun h => ?_, ?_⟩⟩
  · by_cases hmain : loc < 1024
    · exact .inl (exists_mainLoc hmain)
    · exact .inr (exists_statusLoc (not_lt.mp hmain) h)
  · rintro (⟨b, a, rfl⟩ | ⟨b, g, n, rfl⟩)
    · exact Nat.lt_trans (mainLoc_lt b a) (by decide)
    · exact (statusLoc_range b g n).2

/-! ### The fields of an SRC address by their numbers (R20) -/

theorem eq_highNibble {g : Nibble} (h : g.toNat = addr.toNat / 16) : g = addr.extractLsb' 4 4 :=
  BitVec.eq_of_toNat_eq (h.trans (highNibble_toNat addr).symm)

theorem eq_chip {c : BitVec 2} (h : c.toNat = addr.toNat / 64) : c = addr.extractLsb' 6 2 := by
  refine BitVec.eq_of_toNat_eq ?_
  have := addr.isLt
  simp only [BitVec.extractLsb'_toNat, Nat.shiftRight_eq_div_pow]
  omega

/-! ### Stores and loads on a selection -/

/-- What a store leaves: ACC at its location. -/
abbrev State.afterStore (s : State) (loc : Nat) : State := { s with ram := s.ram.write loc s.acc, pc := s.pc + 1 }

/-- What a load leaves: its location in ACC. -/
abbrev State.afterLoad (s : State) (loc : Nat) : State := { s with acc := s.ram.read loc, pc := s.pc + 1 }

theorem exec_wrm (haddr : s.srcaddr = some addr) (hbank : s.selectedBank = some b) :
    exec .wrm s = .next (s.afterStore (mainLoc b addr)) := onSelected_of_selection haddr hbank _

theorem exec_rdm (haddr : s.srcaddr = some addr) (hbank : s.selectedBank = some b) :
    exec .rdm s = .next (s.afterLoad (mainLoc b addr)) := onSelected_of_selection haddr hbank _

theorem writeSelectedStatus_of_selection (haddr : s.srcaddr = some addr) (hbank : s.selectedBank = some b) (n : Fin 4) :
    s.writeSelectedStatus n = .next (s.afterStore (statusLoc b (addr.extractLsb' 4 4) n)) :=
  onSelected_of_selection haddr hbank _

theorem readSelectedStatus_of_selection (haddr : s.srcaddr = some addr) (hbank : s.selectedBank = some b) (n : Fin 4) :
    s.readSelectedStatus n = .next (s.afterLoad (statusLoc b (addr.extractLsb' 4 4) n)) :=
  onSelected_of_selection haddr hbank _

theorem exec_statusWrite {e : Instr × Fin 4} (he : e ∈ [(Instr.wr0, (0 : Fin 4)), (.wr1, 1), (.wr2, 2), (.wr3, 3)])
    (s : State) : exec e.1 s = s.writeSelectedStatus e.2 := by
  simp only [List.mem_cons, List.not_mem_nil, or_false] at he
  obtain rfl | rfl | rfl | rfl := he <;> rfl

theorem exec_statusRead {e : Instr × Fin 4} (he : e ∈ [(Instr.rd0, (0 : Fin 4)), (.rd1, 1), (.rd2, 2), (.rd3, 3)])
    (s : State) : exec e.1 s = s.readSelectedStatus e.2 := by
  simp only [List.mem_cons, List.not_mem_nil, or_false] at he
  obtain rfl | rfl | rfl | rfl := he <;> rfl

/-- Settles O48: WRM is the store at the main location, which reads back and leaves every other location alone. -/
theorem wrmStoresAtMainLocation : Obligations.WrmStoresAtMainLocation := by
  unfold Obligations.WrmStoresAtMainLocation
  intro s addr b ⟨_, _, hwf⟩ haddr hbank
  exact ⟨_, exec_wrm haddr hbank, rfl, Memory.read_write_same hwf, fun loc hloc => Memory.read_write_other hwf hloc⟩

/-- Settles O49: each of the four is the store at its status location. -/
theorem statusWritesStoreAtStatusLocation : Obligations.StatusWritesStoreAtStatusLocation := by
  unfold Obligations.StatusWritesStoreAtStatusLocation
  intro s addr b ⟨_, _, hwf⟩ haddr hbank e he g hg
  rw [eq_highNibble hg, exec_statusWrite he, writeSelectedStatus_of_selection haddr hbank]
  exact ⟨_, rfl, rfl, Memory.read_write_same hwf, fun loc hloc => Memory.read_write_other hwf hloc⟩

/-- Settles O50: each of the five is the load of its location. -/
theorem ramReadsLoadAcc : Obligations.RamReadsLoadAcc := by
  unfold Obligations.RamReadsLoadAcc
  intro s addr b haddr hbank
  refine ⟨exec_rdm haddr hbank, fun e he g hg => ?_⟩
  rw [eq_highNibble hg, exec_statusRead he, readSelectedStatus_of_selection haddr hbank]
  rfl

theorem exec_statusWrite_statusRead {e : Instr × Instr}
    (he : e ∈ [(Instr.wr0, Instr.rd0), (.wr1, .rd1), (.wr2, .rd2), (.wr3, .rd3)]) :
    ∃ n, (∀ s, exec e.1 s = s.writeSelectedStatus n) ∧ ∀ s, exec e.2 s = s.readSelectedStatus n := by
  simp only [List.mem_cons, List.not_mem_nil, or_false] at he
  obtain rfl | rfl | rfl | rfl := he
  · exact ⟨0, fun _ => rfl, fun _ => rfl⟩
  · exact ⟨1, fun _ => rfl, fun _ => rfl⟩
  · exact ⟨2, fun _ => rfl, fun _ => rfl⟩
  · exact ⟨3, fun _ => rfl, fun _ => rfl⟩

/-- A store, another value in ACC, and the load of the same location bring the value back. -/
theorem load_after_store {i j : Instr} {loc : Nat} (hwf : s.ram.wf Config.ramSize = true)
    (hi : exec i s = .next (s.afterStore loc)) (d : Nibble)
    (hj : ∀ u : State, u.srcaddr = s.srcaddr → u.selectedBank = s.selectedBank → exec j u = .next (u.afterLoad loc)) :
    ∃ t u, exec i s = .next u ∧ execSeq [i, .ldm d, j] s = .next t ∧ t = { s with ram := u.ram, pc := s.pc + 3 } := by
  have hpc : s.pc + 1 + 1 + 1 = s.pc + 3 := by simp only [BitVec.add_assoc]; rfl
  rw [execSeq_cons_of_next hi, execSeq_cons_of_next (exec_ldm d _), execSeq_singleton]
  have hread : (s.ram.write loc s.acc).read loc = s.acc := Memory.read_write_same hwf
  refine ⟨_, _, hi, hj _ rfl rfl, ?_⟩
  simp only [State.afterLoad, hread, hpc]

/-- Settles O51: the load selects the location of the store, since neither the store nor LDM writes SRCADDR, BANK or
BANK_MAP. -/
theorem whatIsWrittenIsReadBack : Obligations.WhatIsWrittenIsReadBack := by
  unfold Obligations.WhatIsWrittenIsReadBack
  intro s addr b ⟨_, _, hwf⟩ haddr hbank e he d
  obtain rfl | hstatus := List.mem_cons.mp he
  · exact load_after_store hwf (exec_wrm haddr hbank) d fun u ha hb => exec_rdm (ha.trans haddr) (hb.trans hbank)
  · obtain ⟨n, hwrite, hread⟩ := exec_statusWrite_statusRead hstatus
    exact load_after_store hwf ((hwrite s).trans (writeSelectedStatus_of_selection haddr hbank n)) d fun u ha hb =>
      (hread u).trans (readSelectedStatus_of_selection (ha.trans haddr) (hb.trans hbank) n)

/-! ### Ports -/

theorem ramPortIndex_inj {b b' : Fin 4} {c c' : BitVec 2} (h : ramPortIndex b c = ramPortIndex b' c') :
    (b, c) = (b', c') := by
  have := c.isLt; have := c'.isLt
  have hval : 4 * b.val + c.toNat = 4 * b'.val + c'.toNat := congrArg Fin.val h
  have hbank : b = b' := Fin.ext (by omega)
  have hchip : c = c' := BitVec.eq_of_toNat_eq (by omega)
  rw [hbank, hchip]

theorem readRamPort_ramPortOut_same (s : State) (b : Fin 4) (c : BitVec 2) (v : Nibble) :
    (s.ramPortOut b c v).readRamPort b c = v := by
  simp [State.readRamPort, State.ramPortOut]

theorem readRamPort_ramPortOut_other {b b' : Fin 4} {c c' : BitVec 2} (v : Nibble) (h : (b', c') ≠ (b, c)) :
    (s.ramPortOut b c v).readRamPort b' c' = s.readRamPort b' c' := by
  have hindex : (ramPortIndex b c).val ≠ (ramPortIndex b' c').val := fun e => h (ramPortIndex_inj (Fin.ext e)).symm
  simp [State.readRamPort, State.ramPortOut, hindex]

theorem readRomPort_romPortOut_same (s : State) (k v : Nibble) : (s.romPortOut k v).readRomPort k = v := by
  simp [State.readRomPort, State.romPortOut]

theorem readRomPort_romPortOut_other {k k' : Nibble} (v : Nibble) (h : k' ≠ k) :
    (s.romPortOut k v).readRomPort k' = s.readRomPort k' := by
  have hindex : k.toNat ≠ k'.toNat := fun e => h (BitVec.eq_of_toNat_eq e.symm)
  simp [State.readRomPort, State.romPortOut, hindex]

theorem exec_wmp (haddr : s.srcaddr = some addr) (hbank : s.selectedBank = some b) :
    exec .wmp s = .next ((s.ramPortOut b (addr.extractLsb' 6 2) s.acc).setPc (s.pc + 1)) :=
  onSelected_of_selection haddr hbank _

theorem exec_wrr (haddr : s.srcaddr = some addr) :
    exec .wrr s = .next ((s.romPortOut (addr.extractLsb' 4 4) s.acc).setPc (s.pc + 1)) := onRomPort_of_srcaddr haddr _

theorem exec_rdr (haddr : s.srcaddr = some addr) : exec .rdr s = .next { s with
    acc := s.portLevel (addr.extractLsb' 4 4), portInputs := s.portInputs.tail, portDraws := s.portDraws + 1,
    pc := s.pc + 1 } := onRomPort_of_srcaddr haddr _

/-- Settles O53: each is an output on its port, which sets one latch of sixteen and adds one event. -/
theorem portWritesSetLatchAndEmitEvent : Obligations.PortWritesSetLatchAndEmitEvent := by
  unfold Obligations.PortWritesSetLatchAndEmitEvent
  refine ⟨fun s addr b haddr hbank c hc => ?_, fun s addr k haddr hk => ?_⟩
  · rw [eq_chip hc]
    exact ⟨_, exec_wmp haddr hbank, rfl, readRamPort_ramPortOut_same s b _ s.acc,
      fun _ _ => readRamPort_ramPortOut_other s.acc⟩
  · rw [eq_highNibble hk]
    exact ⟨_, exec_wrr haddr, rfl, readRomPort_romPortOut_same s _ s.acc, fun _ => readRomPort_romPortOut_other s.acc⟩

/-- Settles O54: RDR draws the level of its port, which is the one lined up where there is one. -/
theorem rdrLoadsThePlatformsInput : Obligations.RdrLoadsThePlatformsInput := by
  unfold Obligations.RdrLoadsThePlatformsInput
  intro s addr k haddr hk
  refine ⟨fun v vs h => portLevel_of_queue h k, ?_⟩
  rw [eq_highNibble hk, exec_rdr haddr]

end Sys2Proof.Machine

/-! ## KBP and DCL (`spec/48_special.md`) -/

namespace Sys2Proof.Machine

variable {s t : State} {i : Instr}

/-! ### KBP -/

theorem exec_kbp (s : State) : exec .kbp s = .next { s with acc := kbp s.acc, pc := s.pc + 1 } := rfl

theorem kbp_single_bit {v : Nibble} {k : Nat} (hk : k < 4) : v.toNat = 2 ^ k → (kbp v).toNat = k + 1 := by
  revert v k
  decide

theorem kbp_several_bits {v : Nibble} : v ≠ 0 → (∀ k, k < 4 → v.toNat ≠ 2 ^ k) → kbp v = 15 := by
  revert v
  decide

/-- Settles O56, by the three kinds of nibble. -/
theorem kbpGivesBitPosition : Obligations.KbpGivesBitPosition := by
  unfold Obligations.KbpGivesBitPosition
  refine fun s => ⟨_, exec_kbp s, rfl, fun hzero => ?_, fun k hk => kbp_single_bit hk, kbp_several_bits⟩
  simp [hzero, kbp]

/-! ### DCL -/

theorem exec_dcl (s : State) :
    exec .dcl s = .next { s with bank := s.acc.extractLsb' 0 3, srcaddr := none, pc := s.pc + 1 } := rfl

theorem bankOfAcc_toNat (v : Nibble) : (v.extractLsb' 0 3).toNat = v.toNat % 8 := by
  simp only [BitVec.extractLsb'_toNat, Nat.shiftRight_eq_div_pow]
  omega

/-- Settles O57: the low three bits of ACC are its value modulo 8. -/
theorem dclSelectsBankFromAcc : Obligations.DclSelectsBankFromAcc := by
  unfold Obligations.DclSelectsBankFromAcc
  exact fun s => ⟨_, bankOfAcc_toNat s.acc, exec_dcl s⟩

/-! ### An address unset by DCL stays unset until SRC -/

theorem exec_keeps_srcaddr_none (hsrc : ∀ p, i ≠ .src p) (hnone : s.srcaddr = none) (h : exec i s = .next t) :
    t.srcaddr = none := by
  by_cases hdcl : i = .dcl
  · subst hdcl
    cases h
    rfl
  · rw [(exec_frame h).srcaddr hdcl hsrc, hnone]

theorem execSeq_keeps_srcaddr_none {is : List Instr} (hsrc : ∀ p, .src p ∉ is) (hnone : s.srcaddr = none)
    (h : execSeq is s = .next t) : t.srcaddr = none := by
  induction is generalizing s with
  | nil => cases h; exact hnone
  | cons i is ih =>
    obtain ⟨u, hu, ht⟩ := execSeq_cons_next_iff.mp h
    have hhead : ∀ p, i ≠ .src p := fun p e => hsrc p (e ▸ List.mem_cons_self)
    exact ih (fun p hp => hsrc p (List.mem_cons_of_mem i hp)) (exec_keeps_srcaddr_none hhead hnone hu) ht

/-- With an address, and a bank where one is needed, a RAM or port instruction completes. -/
theorem exec_completes_of_selection {addr : Byte} (huse : i.usesSrcaddr = true) (haddr : s.srcaddr = some addr)
    (hbank : i.usesBank = true → ∃ b, s.selectedBank = some b) : ∃ t, exec i s = .next t := by
  cases exec_shape i s with
  | call | ret => cases huse
  | selected _ huses k h =>
    obtain ⟨b, hb⟩ := hbank huses
    exact ⟨_, h.trans (onSelected_of_selection haddr hb k)⟩
  | romPort _ _ k h => exact ⟨_, h.trans (onRomPort_of_srcaddr haddr k)⟩
  | free _ _ _ _ t h => exact ⟨t, h⟩

/-- After DCL and SRC a RAM or port instruction completes, if the code in ACC selects a bank or none is needed. -/
theorem execSeq_dcl_src_completes (s : State) (p : RegPair) (huse : i.usesSrcaddr = true)
    (hbank : i.usesBank = true → ∃ b, s.bankMap[(s.acc.extractLsb' 0 3).toNat]'(BitVec.isLt _) = some b) :
    ∃ t, execSeq [.dcl, .src p, i] s = .next t := by
  rw [execSeq_cons_of_next (exec_dcl s), execSeq_cons_of_next (exec_src p _), execSeq_singleton]
  exact exec_completes_of_selection huse rfl hbank

/-- Settles O55: DCL leaves no address, and the first RAM or port instruction without one faults where it stands; with a
new one it completes. -/
theorem bankSwitchUnsetsTheAddress : Obligations.BankSwitchUnsetsTheAddress := by
  unfold Obligations.BankSwitchUnsetsTheAddress
  refine ⟨fun s t between i hsrc huse h => ?_, fun s p i huse hbank => ?_, fun s p i k b huse hk hmap => ?_⟩
  · have hrest : execSeq between _ = .next t := (execSeq_cons_of_next (exec_dcl s)).symm.trans h
    have hnone : t.srcaddr = none := execSeq_keeps_srcaddr_none hsrc rfl hrest
    rw [execSeq_append_of_next h, execSeq_singleton]
    exact exec_fault_iff.mpr (.inr (.inr (.inl ⟨huse, hnone, rfl⟩)))
  · exact execSeq_dcl_src_completes s p huse fun h => nomatch hbank.symm.trans h
  · refine execSeq_dcl_src_completes s p huse fun _ => ⟨b, ?_⟩
    have hcode : (s.acc.extractLsb' 0 3).toNat = k.val := (bankOfAcc_toNat s.acc).trans hk.symm
    simp only [hcode]
    exact hmap

end Sys2Proof.Machine

/-! ## Reset (`spec/10_state.md` R29, `spec/70_reset_and_hazards.md` R230) -/

namespace Sys2Proof.Machine

variable {s : State}

theorem launch_readReg (p : Launch) (r : Reg) : (State.launch p).readReg r = 0 := by
  simp [State.readReg, State.launch]

theorem reset_readRamPort (b : Fin 4) (c : BitVec 2) : State.reset.readRamPort b c = 0 := by
  simp [State.readRamPort, State.reset, State.launch, Launch.empty]

theorem reset_readRomPort (k : Nibble) : State.reset.readRomPort k = 0 := by
  simp [State.readRomPort, State.reset, State.launch, Launch.empty]

theorem selectedBank_eq {m : Vector (Option (Fin 4)) 8} {c : BitVec 3} (hmap : s.bankMap = m) (hbank : s.bank = c) :
    s.selectedBank = m[c.toNat]'c.isLt := by
  subst hmap hbank
  rfl

/-- Settles O10, field by field of the launch; the memories of the empty launch list nothing, and its map is read at
each of the eight codes. -/
theorem launchGivesResetState : Obligations.LaunchGivesResetState := by
  unfold Obligations.LaunchGivesResetState
  refine ⟨fun p => ⟨rfl, rfl, launch_readReg p, rfl, rfl, rfl, rfl, rfl, rfl, rfl, rfl, rfl, rfl⟩, rfl,
    ⟨fun a => Memory.read_nil _, fun b a => Memory.read_nil _, fun b g n => Memory.read_nil _, reset_readRamPort,
      reset_readRomPort, rfl, rfl⟩, fun s hmap => ?_⟩
  exact ⟨selectedBank_eq hmap, selectedBank_eq hmap, selectedBank_eq hmap, selectedBank_eq hmap, selectedBank_eq hmap,
    selectedBank_eq hmap, selectedBank_eq hmap, selectedBank_eq hmap⟩

end Sys2Proof.Machine

/-! ## Programs placed in ROM (`spec/30_encoding.md` section 7, `spec/20_memory.md` R45) -/

namespace Sys2Proof

theorem encode_one_or_two (i : Instr) : (∃ b, encode i = [b]) ∨ ∃ b b2, encode i = [b, b2] := by
  cases i with
  | jcn | fim | jun | jms | isz => exact .inr ⟨_, _, rfl⟩
  | _ => exact .inl ⟨_, rfl⟩

end Sys2Proof

namespace Sys2Proof.Machine

variable {s : State} {i : Instr}

/-! ### What a list of bytes placed in a memory reads as -/

theorem Memory.read_writeList_below {w size a b : Nat} {vs : List (BitVec w)} {m : Memory w} (hm : m.wf size = true)
    (hfit : a + vs.length ≤ size) (hb : b < a) : (m.writeList a vs).read b = m.read b := by
  induction vs generalizing m a with
  | nil => rfl
  | cons v vs ih =>
    rw [List.length_cons] at hfit
    have hwf : (m.write a v).wf size = true := Memory.write_wf hm (by omega)
    exact (ih hwf (by omega) (by omega)).trans (Memory.read_write_other hm (by omega))

theorem Memory.read_writeList {w size a k : Nat} {v : BitVec w} {vs : List (BitVec w)} {m : Memory w}
    (hm : m.wf size = true) (hfit : a + vs.length ≤ size) (hv : vs[k]? = some v) :
    (m.writeList a vs).read (a + k) = v := by
  induction vs generalizing m a k with
  | nil => cases hv
  | cons u vs ih =>
    rw [List.length_cons] at hfit
    have hwf : (m.write a u).wf size = true := Memory.write_wf hm (by omega)
    cases k with
    | zero =>
      cases hv
      exact (Memory.read_writeList_below hwf (by omega) (Nat.lt_succ_self a)).trans (Memory.read_write_same hm)
    | succ k =>
      rw [← Nat.add_assoc, Nat.add_right_comm]
      exact ih hwf (by omega) (by simpa using hv)

theorem romImage_read {bytes : List Byte} {k : Nat} {v : Byte} (hfit : bytes.length ≤ 4096) (hv : bytes[k]? = some v) :
    (romImage bytes).read k = v := by
  have hsize : 0 + bytes.length ≤ Config.romSize := by rwa [Nat.zero_add]
  have hread := Memory.read_writeList (m := []) rfl hsize hv
  rwa [Nat.zero_add] at hread

/-! ### Fetching an instruction whose bytes stand at `pc` -/

theorem fetch_of_encode (h : ∀ k v, (encode i)[k]? = some v → s.readRom (s.nextPc k) = v) : s.fetch = .ok i := by
  have hpc : s.nextPc 0 = s.pc := BitVec.add_zero s.pc
  obtain ⟨b, hb⟩ | ⟨b, b2, hb⟩ := encode_one_or_two i
  · have h1 := h 0 b (by rw [hb]; rfl)
    rw [hpc] at h1
    refine fetch_of_decode (rest := [s.readRom (s.nextPc 1)]) ?_
    rw [h1, ← decode_encode, hb]
    rfl
  · have h1 := h 0 b (by rw [hb]; rfl)
    have h2 := h 1 b2 (by rw [hb]; rfl)
    rw [hpc] at h1
    refine fetch_of_decode (rest := []) ?_
    rw [h1, h2, ← decode_encode, hb]
    rfl

/-- The bytes of an instruction stand in the image of its program after those of the instructions before it. -/
theorem getElem?_program {before after : List Instr} {k : Nat} {v : Byte} (hv : (encode i)[k]? = some v) :
    ((before ++ i :: after).flatMap encode)[(before.flatMap encode).length + k]? = some v := by
  obtain ⟨hk, -⟩ := List.getElem?_eq_some_iff.mp hv
  rw [List.flatMap_append, List.flatMap_cons, List.getElem?_append_right (Nat.le_add_right _ _),
    Nat.add_sub_cancel_left, List.getElem?_append_left hk, hv]

/-- Settles O58: each byte of the instruction is read where the image has it, so the fetch decodes the instruction. -/
theorem programImageRunsItsInstructions : Obligations.ProgramImageRunsItsInstructions := by
  unfold Obligations.ProgramImageRunsItsInstructions
  intro before after i s hfit hrom hpc
  refine step_of_fetch (fetch_of_encode fun k v hv => ?_)
  have hplace := getElem?_program (before := before) (after := after) hv
  obtain ⟨hlt, -⟩ := List.getElem?_eq_some_iff.mp hplace
  have haddr : (s.nextPc k).toNat = (before.flatMap encode).length + k := by
    rw [nextPc_toNat, hpc]
    omega
  rw [State.readRom, hrom, haddr]
  exact romImage_read hfit hplace

end Sys2Proof.Machine

/-! ## The end of a run (`spec/70_reset_and_hazards.md` R242, `spec/60_exceptions.md` R201) -/

namespace Sys2Proof.Machine

variable {e : Addr} {s t u : State} {k n m : Nat}

/-! ### `runFrom`, one step at a time -/

theorem runFrom_of_end (h : s.pc = e) : runFrom e k n s = .ended n s := by
  cases k <;> simp [runFrom, h]

theorem runFrom_zero_of_ne (h : s.pc ≠ e) : runFrom e 0 n s = .running n s := by
  simp [runFrom, h]

theorem runFrom_succ_of_next (h : s.pc ≠ e) (hstep : step s = .next u) :
    runFrom e (k + 1) n s = runFrom e k (n + 1) u := by
  simp [runFrom, h, hstep]

theorem runFrom_succ_of_fault {f : Fault} (h : s.pc ≠ e) (hstep : step s = .fault f) :
    runFrom e (k + 1) n s = .faulted n f s := by
  simp [runFrom, h, hstep]

theorem runFrom_succ_of_refused {r : Refusal} (h : s.pc ≠ e) (hstep : step s = .refused r) :
    runFrom e (k + 1) n s = .refused n r s := by
  simp [runFrom, h, hstep]

/-! ### Coming to END for the first time -/

/-- After `j` steps from `s` the machine is in `t`, with `pc` at END there and at no earlier boundary. -/
def EndsAfter (e : Addr) (j : Nat) (s t : State) : Prop :=
  Sys2Proof.core.run j s = .next t ∧ t.pc = e ∧ ∀ l u, l < j → Sys2Proof.core.run l s = .next u → u.pc ≠ e

theorem run_zero_next_iff : Sys2Proof.core.run 0 s = .next t ↔ s = t :=
  ⟨fun h => Host.Outcome.next.inj h, congrArg Host.Outcome.next⟩

theorem endsAfter_zero_iff : EndsAfter e 0 s t ↔ s = t ∧ s.pc = e := by
  unfold EndsAfter
  rw [run_zero_next_iff]
  constructor
  · rintro ⟨rfl, hend, -⟩
    exact ⟨rfl, hend⟩
  · rintro ⟨rfl, hend⟩
    exact ⟨rfl, hend, nofun⟩

theorem endsAfter_succ_iff {j : Nat} :
    EndsAfter e (j + 1) s t ↔ s.pc ≠ e ∧ ∃ u, step s = .next u ∧ EndsAfter e j u t := by
  unfold EndsAfter
  constructor
  · rintro ⟨hrun, hend, hfirst⟩
    obtain ⟨u, hstep, hrest⟩ := (run_succ_next_iff Sys2Proof.core).mp hrun
    refine ⟨hfirst 0 s (Nat.succ_pos j) rfl, u, hstep, hrest, hend, fun l v hl hv => ?_⟩
    exact hfirst (l + 1) v (Nat.succ_lt_succ hl) ((run_succ_next_iff Sys2Proof.core).mpr ⟨u, hstep, hv⟩)
  · rintro ⟨hne, u, hstep, hrest, hend, hfirst⟩
    refine ⟨(run_succ_next_iff Sys2Proof.core).mpr ⟨u, hstep, hrest⟩, hend, fun l v hl hv => ?_⟩
    cases l with
    | zero => exact run_zero_next_iff.mp hv ▸ hne
    | succ l =>
      obtain ⟨u', hstep', hv'⟩ := (run_succ_next_iff Sys2Proof.core).mp hv
      cases hstep.symm.trans hstep'
      exact hfirst l v (Nat.lt_of_succ_lt_succ hl) hv'

theorem endsAfter_of_end {j : Nat} (h : s.pc = e) : EndsAfter e j s t ↔ j = 0 ∧ s = t := by
  cases j with
  | zero => simp [endsAfter_zero_iff, h]
  | succ j => simp [endsAfter_succ_iff, h]

/-- A machine that cannot step comes to no END. -/
theorem not_endsAfter_of_stopped {j : Nat} (hne : s.pc ≠ e) (hstop : ∀ u, step s ≠ .next u) : ¬ EndsAfter e j s t := by
  cases j with
  | zero => exact fun h => hne (endsAfter_zero_iff.mp h).2
  | succ j =>
    intro h
    obtain ⟨-, u, hstep, -⟩ := endsAfter_succ_iff.mp h
    exact hstop u hstep

theorem runFrom_ended_iff_of_end (h : s.pc = e) :
    runFrom e k n s = .ended m t ↔ ∃ j, j ≤ k ∧ m = n + j ∧ EndsAfter e j s t := by
  simp [runFrom_of_end h, endsAfter_of_end h, eq_comm]

/-- A run ends exactly when END is reached within its bound; the instructions before are counted on. -/
theorem runFrom_ended_iff : runFrom e k n s = .ended m t ↔ ∃ j, j ≤ k ∧ m = n + j ∧ EndsAfter e j s t := by
  induction k generalizing n s with
  | zero =>
    by_cases hend : s.pc = e
    · exact runFrom_ended_iff_of_end hend
    · simp [runFrom_zero_of_ne hend, endsAfter_zero_iff, hend]
  | succ k ih =>
    by_cases hend : s.pc = e
    · exact runFrom_ended_iff_of_end hend
    cases hstep : step s with
    | next u =>
      rw [runFrom_succ_of_next hend hstep, ih]
      constructor
      · rintro ⟨j, hj, hm, hends⟩
        exact ⟨j + 1, by omega, by omega, endsAfter_succ_iff.mpr ⟨hend, u, hstep, hends⟩⟩
      · rintro ⟨j, hj, hm, hends⟩
        cases j with
        | zero => exact absurd (endsAfter_zero_iff.mp hends).2 hend
        | succ j =>
          obtain ⟨-, u', hstep', hrest⟩ := endsAfter_succ_iff.mp hends
          cases hstep.symm.trans hstep'
          exact ⟨j, by omega, by omega, hrest⟩
    | fault f => simp [runFrom_succ_of_fault hend hstep, not_endsAfter_of_stopped hend, hstep]
    | refused r => simp [runFrom_succ_of_refused hend hstep, not_endsAfter_of_stopped hend, hstep]

/-- A faulted run stands before the step that faults. -/
theorem runFrom_faulted {f : Fault} (h : runFrom e k n s = .faulted m f t) :
    ∃ j, j < k ∧ m = n + j ∧ Sys2Proof.core.run j s = .next t ∧ t.pc ≠ e ∧ step t = .fault f := by
  have hne : s.pc ≠ e := fun hend => nomatch (runFrom_of_end hend).symm.trans h
  induction k generalizing n s with
  | zero => exact nomatch (runFrom_zero_of_ne hne).symm.trans h
  | succ k ih =>
    cases hstep : step s with
    | next u =>
      rw [runFrom_succ_of_next hne hstep] at h
      obtain ⟨j, hj, hm, hrun, hfault⟩ := ih h fun hend => nomatch (runFrom_of_end hend).symm.trans h
      exact ⟨j + 1, by omega, by omega, (run_succ_next_iff Sys2Proof.core).mpr ⟨u, hstep, hrun⟩, hfault⟩
    | fault f' =>
      cases (runFrom_succ_of_fault hne hstep).symm.trans h
      exact ⟨0, Nat.succ_pos k, rfl, rfl, hne, hstep⟩
    | refused r => exact nomatch (runFrom_succ_of_refused hne hstep).symm.trans h

/-- Settles O59, from a count of 0. -/
theorem runEndsFirstTimeAtEnd : Obligations.RunEndsFirstTimeAtEnd := by
  unfold Obligations.RunEndsFirstTimeAtEnd
  refine ⟨fun e k n s t => ?_, fun e k n f s t h => ?_⟩
  · rw [runUntil, runFrom_ended_iff]
    simp only [Nat.zero_add]
    exact ⟨fun ⟨j, hj, hn, hends⟩ => hn ▸ ⟨hj, hends⟩, fun ⟨hn, hends⟩ => ⟨n, hn, rfl, hends⟩⟩
  · obtain ⟨j, hj, hn, hfault⟩ := runFrom_faulted h
    rw [Nat.zero_add] at hn
    exact hn ▸ ⟨hj, hfault⟩

end Sys2Proof.Machine

/-! ## Labels of JCN and ISZ (`spec/30_encoding.md` R90) -/

namespace Sys2Proof.Machine

theorem resolveOperand_label {ls : Labels} {l : String} {n : Nat} (h : ls.find l = some n) (after : Nat) :
    resolveOperand ls after .addr8 (.sym l) =
      if n / 256 = after % 4096 / 256 then .ok (n % 256) else .error (.otherPage l) := by
  simp [resolveOperand, h]

theorem resolveOperand_num (ls : Labels) (after : Nat) (kind : OperandKind) (k : Nat) :
    resolveOperand ls after kind (.num k) = .ok k := by
  cases kind <;> rfl

/-- An operation with a number and a label in the page: both of JCN and ISZ have this form. -/
theorem assembleOperation_num_label {ls : Labels} {l m : String} {a n k : Nat} {kind : OperandKind}
    {build : Nat → Nat → Instr} (hkinds : operandKinds m = some [kind, .addr8])
    (hbuild : ∀ k a, buildInstr m [k, a] = some (build k a)) (hk : k < kind.bound) (hfind : ls.find l = some n) :
    assembleOperation ls a m [.num k, .sym l] =
      if n / 256 = (a + 2) % 4096 / 256 then .ok (build k (n % 256)) else .error (.otherPage l) := by
  have hlow : n % 256 < OperandKind.addr8.bound := Nat.mod_lt n (by decide)
  unfold assembleOperation
  simp only [hkinds, resolveOperands, resolveOperand_num, resolveOperand_label hfind]
  by_cases hpage : n / 256 = (a + 2) % 4096 / 256
  · simp [if_pos hpage, operandsAdmitted, (admits_iff _ _).mpr hk, (admits_iff _ _).mpr hlow, hbuild]
  · simp [if_neg hpage]

/-- Settles O60: each takes a number within 16 and the low eight bits of its label. -/
theorem assemblerKeepsJumpsInPage : Obligations.AssemblerKeepsJumpsInPage := by
  unfold Obligations.AssemblerKeepsJumpsInPage
  intro ls l a n k hfind hk
  exact ⟨
    assembleOperation_num_label (kind := .cond)
      (build := fun k a => .jcn (condOfField (BitVec.ofNat 4 k)) (BitVec.ofNat 8 a)) rfl (fun _ _ => rfl) hk hfind,
    assembleOperation_num_label (kind := .reg)
      (build := fun k a => .isz (regOfField (BitVec.ofNat 4 k)) (BitVec.ofNat 8 a)) rfl (fun _ _ => rfl) hk hfind⟩

end Sys2Proof.Machine
